-- ==== Sys2Proof/Word.lean ====
section
/-!
DEFINITION. The words of the machine (spec 00_scope.md R5, R7): every general register, the pc, every
address and every instruction word is a 32-bit vector, bit 0 its least significant bit; a byte has 8
bits; a register index has 5 bits, so every index an instruction can form names a register (R10).
-/

namespace Sys2Proof

/-- A machine word: 32 bits, read as unsigned or as two's complement (R5, R7). -/
abbrev Word := BitVec 32

/-- One byte of memory (R30). -/
abbrev Byte := BitVec 8

/-- A register index: the 5-bit field of an instruction word (R5, R10). -/
abbrev RegIndex := BitVec 5

end Sys2Proof
end

