-- ==== Sys2Proof/Machine/Flags.lean ====
section
/-!
DEFINITION. The machine has no flags, condition codes or predicates (10_state.md R17): nothing records a
carry or an overflow. What takes their place is a comparison whose answer an instruction uses at once:
written to a register as 0 or 1, or selecting the next pc.
-/

namespace Sys2Proof.Machine

/-- `a = b`, all 32 bits (R181, D20). -/
def eqBits (a b : Word) : Bool := a == b

/-- `a <s b`: the signed readings (R8, R148). -/
def ltSigned (a b : Word) : Bool := decide (a.toInt < b.toInt)

/-- `a <u b`: the unsigned readings (R8, R149). -/
def ltUnsigned (a b : Word) : Bool := decide (a.toNat < b.toNat)

/-- A comparison's answer as a register value: 1 or 0 (R17, R136, R148, R149). -/
def boolWord (c : Bool) : Word := if c then 1#32 else 0#32

end Sys2Proof.Machine
end

