-- ==== Sys2Proof/Syntax.lean ====
section
/-!
DEFINITION. The instructions: one constructor per row of spec/opcode_table.json, in the table's order
(30_encoding.md R60). An operand is what the extractor hands the executor (40_decode_and_step.md R87,
R88): a register index, or the 32-bit immediate assembled for the row's format.
-/

namespace Sys2Proof

/-- The seven formats (R52; 90_conflicts.md C2). -/
inductive Format where
  | r
  | i
  | s
  | b
  | u
  | j
  | n
  deriving DecidableEq, Repr

/-- The names of the table's 40 rows (R2, R60). -/
inductive Mnemonic where
  | lui | auipc
  | lw | lh | lhu | lbu
  | sw | sh | sb
  | addi | andi | xori | slli | srli | srai | sltiu
  | add | sub | and | or | xor | sll | srl | sra | slt | sltu
  | mul | mulh | div | rem | divu | remu
  | jal | jalr
  | beq | bne | blt | bge
  | ebreak | inv
  deriving DecidableEq, Repr

/-- An instruction with its operands. `rs1` and `rs2` are indices, `imm` is the extracted 32-bit
immediate (for the shifts the immediate of which only bits 4:0 are used, R63). -/
inductive Instr where
  | lui (rd : RegIndex) (imm : Word)
  | auipc (rd : RegIndex) (imm : Word)
  | lw (rd rs1 : RegIndex) (imm : Word)
  | lh (rd rs1 : RegIndex) (imm : Word)
  | lhu (rd rs1 : RegIndex) (imm : Word)
  | lbu (rd rs1 : RegIndex) (imm : Word)
  | sw (rs1 rs2 : RegIndex) (imm : Word)
  | sh (rs1 rs2 : RegIndex) (imm : Word)
  | sb (rs1 rs2 : RegIndex) (imm : Word)
  | addi (rd rs1 : RegIndex) (imm : Word)
  | andi (rd rs1 : RegIndex) (imm : Word)
  | xori (rd rs1 : RegIndex) (imm : Word)
  | slli (rd rs1 : RegIndex) (imm : Word)
  | srli (rd rs1 : RegIndex) (imm : Word)
  | srai (rd rs1 : RegIndex) (imm : Word)
  | sltiu (rd rs1 : RegIndex) (imm : Word)
  | add (rd rs1 rs2 : RegIndex)
  | sub (rd rs1 rs2 : RegIndex)
  | and (rd rs1 rs2 : RegIndex)
  | or (rd rs1 rs2 : RegIndex)
  | xor (rd rs1 rs2 : RegIndex)
  | sll (rd rs1 rs2 : RegIndex)
  | srl (rd rs1 rs2 : RegIndex)
  | sra (rd rs1 rs2 : RegIndex)
  | slt (rd rs1 rs2 : RegIndex)
  | sltu (rd rs1 rs2 : RegIndex)
  | mul (rd rs1 rs2 : RegIndex)
  | mulh (rd rs1 rs2 : RegIndex)
  | div (rd rs1 rs2 : RegIndex)
  | rem (rd rs1 rs2 : RegIndex)
  | divu (rd rs1 rs2 : RegIndex)
  | remu (rd rs1 rs2 : RegIndex)
  | jal (rd : RegIndex) (imm : Word)
  | jalr (rd rs1 : RegIndex) (imm : Word)
  | beq (rs1 rs2 : RegIndex) (imm : Word)
  | bne (rs1 rs2 : RegIndex) (imm : Word)
  | blt (rs1 rs2 : RegIndex) (imm : Word)
  | bge (rs1 rs2 : RegIndex) (imm : Word)
  | ebreak
  | inv
  deriving DecidableEq, Repr

/-- The table row an instruction belongs to. -/
def Instr.mnemonic : Instr → Mnemonic
  | .lui _ _ => .lui
  | .auipc _ _ => .auipc
  | .lw _ _ _ => .lw
  | .lh _ _ _ => .lh
  | .lhu _ _ _ => .lhu
  | .lbu _ _ _ => .lbu
  | .sw _ _ _ => .sw
  | .sh _ _ _ => .sh
  | .sb _ _ _ => .sb
  | .addi _ _ _ => .addi
  | .andi _ _ _ => .andi
  | .xori _ _ _ => .xori
  | .slli _ _ _ => .slli
  | .srli _ _ _ => .srli
  | .srai _ _ _ => .srai
  | .sltiu _ _ _ => .sltiu
  | .add _ _ _ => .add
  | .sub _ _ _ => .sub
  | .and _ _ _ => .and
  | .or _ _ _ => .or
  | .xor _ _ _ => .xor
  | .sll _ _ _ => .sll
  | .srl _ _ _ => .srl
  | .sra _ _ _ => .sra
  | .slt _ _ _ => .slt
  | .sltu _ _ _ => .sltu
  | .mul _ _ _ => .mul
  | .mulh _ _ _ => .mulh
  | .div _ _ _ => .div
  | .rem _ _ _ => .rem
  | .divu _ _ _ => .divu
  | .remu _ _ _ => .remu
  | .jal _ _ => .jal
  | .jalr _ _ _ => .jalr
  | .beq _ _ _ => .beq
  | .bne _ _ _ => .bne
  | .blt _ _ _ => .blt
  | .bge _ _ _ => .bge
  | .ebreak => .ebreak
  | .inv => .inv

end Sys2Proof
end

