-- ==== Sys2Proof/WellFormed.lean ====
section
/-!
DEFINITION. When an instruction's operands can be encoded (30_encoding.md R53 to R57, R63; the operand
ranges of R70). Registers need no check: a 5-bit index always names one (R10). An immediate must be a
value its format's extractor can produce. Every instruction a word decodes to is well formed.
-/

namespace Sys2Proof

/-- An I or S immediate: the sign extension of its low 12 bits, -2048..2047 (R53, R54). -/
def wfImm12 (imm : Word) : Bool :=
  (imm.setWidth 12).signExtend 32 == imm

/-- A B immediate: the sign extension of its low 13 bits, bit 0 clear, -4096..4094 (R55). -/
def wfImm13 (imm : Word) : Bool :=
  (imm.setWidth 13).signExtend 32 == imm && !imm[0]

/-- A U immediate: its low 12 bits are zero (R56). -/
def wfImm20 (imm : Word) : Bool :=
  imm.setWidth 12 == 0

/-- A J immediate: the sign extension of its low 21 bits, bit 0 clear, -1048576..1048574 (R57). -/
def wfImm21 (imm : Word) : Bool :=
  (imm.setWidth 21).signExtend 32 == imm && !imm[0]

/-- The immediate of a shift whose table row fixes bits 31:25 to `top`: `top` above a 5-bit amount
(R63). -/
def wfShift (top : BitVec 7) (imm : Word) : Bool :=
  (top ++ imm.setWidth 5 : BitVec 12).setWidth 32 == imm

/-- Whether an instruction has an encoding. -/
def Instr.wf : Instr → Bool
  | .lui _ imm | .auipc _ imm => wfImm20 imm
  | .lw _ _ imm | .lh _ _ imm | .lhu _ _ imm | .lbu _ _ imm => wfImm12 imm
  | .sw _ _ imm | .sh _ _ imm | .sb _ _ imm => wfImm12 imm
  | .addi _ _ imm | .andi _ _ imm | .xori _ _ imm | .sltiu _ _ imm => wfImm12 imm
  | .slli _ _ imm | .srli _ _ imm => wfShift 0b0000000 imm
  | .srai _ _ imm => wfShift 0b0100000 imm
  | .add _ _ _ | .sub _ _ _ | .and _ _ _ | .or _ _ _ | .xor _ _ _ => true
  | .sll _ _ _ | .srl _ _ _ | .sra _ _ _ | .slt _ _ _ | .sltu _ _ _ => true
  | .mul _ _ _ | .mulh _ _ _ | .div _ _ _ | .rem _ _ _ | .divu _ _ _ | .remu _ _ _ => true
  | .jal _ imm => wfImm21 imm
  | .jalr _ _ imm => wfImm12 imm
  | .beq _ _ imm | .bne _ _ imm | .blt _ _ imm | .bge _ _ imm => wfImm13 imm
  | .ebreak | .inv => true

end Sys2Proof
end

