-- ==== Sys2Proof/Decode.lean ====
section
/-!
DEFINITION. The Bit-Pattern Decoder and the Operand Extractor (40_decode_and_step.md R80, R85 to R88;
30_encoding.md R50 to R68): the ordered table of 40 patterns, the scan that takes the first match, the
fields and immediates of each format; and after them the encoder, written from R52 and R62. Decoding a
word is total: a word that matches no other row is `inv`. Decoding bytes rejects, by name, only a list
too short to hold a word.
-/

namespace Sys2Proof

/-! ### Patterns (R59, R60) -/

/-- One row of the decoder table: the bits that are fixed, their values, and what they select (R59). -/
structure PatternEntry where
  mnemonic : Mnemonic
  format : Format
  mask : Word
  expected : Word
  deriving DecidableEq, Repr

/-- A word matches a row when its bits at the fixed positions are the row's (R59). -/
def PatternEntry.Matches (e : PatternEntry) (w : Word) : Bool :=
  w &&& e.mask == e.expected

/-- `lui` to `sb`: upper immediates, loads, stores (rows 0 to 8). -/
def tableUpperMemory : List PatternEntry :=
  [⟨.lui, .u, 0x0000007f, 0x00000037⟩,
   ⟨.auipc, .u, 0x0000007f, 0x00000017⟩,
   ⟨.lw, .i, 0x0000707f, 0x00002003⟩,
   ⟨.lh, .i, 0x0000707f, 0x00001003⟩,
   ⟨.lhu, .i, 0x0000707f, 0x00005003⟩,
   ⟨.lbu, .i, 0x0000707f, 0x00004003⟩,
   ⟨.sw, .s, 0x0000707f, 0x00002023⟩,
   ⟨.sh, .s, 0x0000707f, 0x00001023⟩,
   ⟨.sb, .s, 0x0000707f, 0x00000023⟩]

/-- `addi` to `sltiu`: register-immediate (rows 9 to 15). -/
def tableImmediate : List PatternEntry :=
  [⟨.addi, .i, 0x0000707f, 0x00000013⟩,
   ⟨.andi, .i, 0x0000707f, 0x00007013⟩,
   ⟨.xori, .i, 0x0000707f, 0x00004013⟩,
   ⟨.slli, .i, 0xfe00707f, 0x00001013⟩,
   ⟨.srli, .i, 0xfe00707f, 0x00005013⟩,
   ⟨.srai, .i, 0xfe00707f, 0x40005013⟩,
   ⟨.sltiu, .i, 0x0000707f, 0x00003013⟩]

/-- `add` to `sltu`: register-register (rows 16 to 25). -/
def tableRegister : List PatternEntry :=
  [⟨.add, .r, 0xfe00707f, 0x00000033⟩,
   ⟨.sub, .r, 0xfe00707f, 0x40000033⟩,
   ⟨.and, .r, 0xfe00707f, 0x00007033⟩,
   ⟨.or, .r, 0xfe00707f, 0x00006033⟩,
   ⟨.xor, .r, 0xfe00707f, 0x00004033⟩,
   ⟨.sll, .r, 0xfe00707f, 0x00001033⟩,
   ⟨.srl, .r, 0xfe00707f, 0x00005033⟩,
   ⟨.sra, .r, 0xfe00707f, 0x40005033⟩,
   ⟨.slt, .r, 0xfe00707f, 0x00002033⟩,
   ⟨.sltu, .r, 0xfe00707f, 0x00003033⟩]

/-- `mul` to `remu`: multiply and divide (rows 26 to 31). -/
def tableMulDiv : List PatternEntry :=
  [⟨.mul, .r, 0xfe00707f, 0x02000033⟩,
   ⟨.mulh, .r, 0xfe00707f, 0x02001033⟩,
   ⟨.div, .r, 0xfe00707f, 0x02004033⟩,
   ⟨.rem, .r, 0xfe00707f, 0x02006033⟩,
   ⟨.divu, .r, 0xfe00707f, 0x02005033⟩,
   ⟨.remu, .r, 0xfe00707f, 0x02007033⟩]

/-- `jal` to `ebreak`: jumps, branches, the host trap (rows 32 to 38). -/
def tableControl : List PatternEntry :=
  [⟨.jal, .j, 0x0000007f, 0x0000006f⟩,
   ⟨.jalr, .i, 0x0000707f, 0x00000067⟩,
   ⟨.beq, .b, 0x0000707f, 0x00000063⟩,
   ⟨.bne, .b, 0x0000707f, 0x00001063⟩,
   ⟨.blt, .b, 0x0000707f, 0x00004063⟩,
   ⟨.bge, .b, 0x0000707f, 0x00005063⟩,
   ⟨.ebreak, .n, 0xffffffff, 0x00100073⟩]

/-- The last row: nothing fixed, so every word matches it (R60 entry 39, R61). -/
def catchAll : PatternEntry := ⟨.inv, .n, 0x00000000, 0x00000000⟩

/-- Rows 0 to 38: the 39 instructions (R2, R60). -/
def definedRows : List PatternEntry :=
  tableUpperMemory ++ tableImmediate ++ tableRegister ++ tableMulDiv ++ tableControl

/-- The decoder table in scan order, the catch-all last (R60). -/
def table : List PatternEntry :=
  definedRows ++ [catchAll]

/-- The first row that matches (R85); a list without one would give the catch-all, which `table` itself
ends with. -/
def scan (w : Word) : List PatternEntry → PatternEntry
  | [] => catchAll
  | e :: rest => if e.Matches w then e else scan w rest

/-- MATCH: the row the decoder selects. It depends on the word alone (R85). -/
def matchWord (w : Word) : PatternEntry :=
  scan w table

/-! ### Templates (R59, R232) -/

/-- One position of a textual template: a fixed bit or a wildcard (R59). -/
inductive Symbol where
  | zero
  | one
  | any
  deriving DecidableEq, Repr

/-- `n` wildcard positions. -/
def free (n : Nat) : List Symbol :=
  List.replicate n .any

/-- `n` fixed positions holding `v`, most significant first. -/
def fixed : (n : Nat) → BitVec n → List Symbol
  | 0, _ => []
  | n + 1, v => (if v.getLsbD n then .one else .zero) :: fixed n (v.setWidth n)

/-- The mask of a template: 1 at each fixed position, most significant first (R59). -/
def templateMask (t : List Symbol) : Word :=
  t.foldl (fun acc s => (acc <<< 1) ||| (if s = .any then 0 else 1)) 0

/-- The expected bits of a template: the fixed bit at each fixed position, 0 at a wildcard (R59). -/
def templateExpected (t : List Symbol) : Word :=
  t.foldl (fun acc s => (acc <<< 1) ||| (if s = .one then 1 else 0)) 0

/-- The template of each row as R60 writes it: bits 31:25, 24:20, 19:15, 14:12, 11:7, 6:0. -/
def template : Mnemonic → List Symbol
  | .lui => free 7 ++ free 5 ++ free 5 ++ free 3 ++ free 5 ++ fixed 7 0b0110111
  | .auipc => free 7 ++ free 5 ++ free 5 ++ free 3 ++ free 5 ++ fixed 7 0b0010111
  | .lw => free 7 ++ free 5 ++ free 5 ++ fixed 3 0b010 ++ free 5 ++ fixed 7 0b0000011
  | .lh => free 7 ++ free 5 ++ free 5 ++ fixed 3 0b001 ++ free 5 ++ fixed 7 0b0000011
  | .lhu => free 7 ++ free 5 ++ free 5 ++ fixed 3 0b101 ++ free 5 ++ fixed 7 0b0000011
  | .lbu => free 7 ++ free 5 ++ free 5 ++ fixed 3 0b100 ++ free 5 ++ fixed 7 0b0000011
  | .sw => free 7 ++ free 5 ++ free 5 ++ fixed 3 0b010 ++ free 5 ++ fixed 7 0b0100011
  | .sh => free 7 ++ free 5 ++ free 5 ++ fixed 3 0b001 ++ free 5 ++ fixed 7 0b0100011
  | .sb => free 7 ++ free 5 ++ free 5 ++ fixed 3 0b000 ++ free 5 ++ fixed 7 0b0100011
  | .addi => free 7 ++ free 5 ++ free 5 ++ fixed 3 0b000 ++ free 5 ++ fixed 7 0b0010011
  | .andi => free 7 ++ free 5 ++ free 5 ++ fixed 3 0b111 ++ free 5 ++ fixed 7 0b0010011
  | .xori => free 7 ++ free 5 ++ free 5 ++ fixed 3 0b100 ++ free 5 ++ fixed 7 0b0010011
  | .slli => fixed 7 0b0000000 ++ free 5 ++ free 5 ++ fixed 3 0b001 ++ free 5 ++ fixed 7 0b0010011
  | .srli => fixed 7 0b0000000 ++ free 5 ++ free 5 ++ fixed 3 0b101 ++ free 5 ++ fixed 7 0b0010011
  | .srai => fixed 7 0b0100000 ++ free 5 ++ free 5 ++ fixed 3 0b101 ++ free 5 ++ fixed 7 0b0010011
  | .sltiu => free 7 ++ free 5 ++ free 5 ++ fixed 3 0b011 ++ free 5 ++ fixed 7 0b0010011
  | .add => fixed 7 0b0000000 ++ free 5 ++ free 5 ++ fixed 3 0b000 ++ free 5 ++ fixed 7 0b0110011
  | .sub => fixed 7 0b0100000 ++ free 5 ++ free 5 ++ fixed 3 0b000 ++ free 5 ++ fixed 7 0b0110011
  | .and => fixed 7 0b0000000 ++ free 5 ++ free 5 ++ fixed 3 0b111 ++ free 5 ++ fixed 7 0b0110011
  | .or => fixed 7 0b0000000 ++ free 5 ++ free 5 ++ fixed 3 0b110 ++ free 5 ++ fixed 7 0b0110011
  | .xor => fixed 7 0b0000000 ++ free 5 ++ free 5 ++ fixed 3 0b100 ++ free 5 ++ fixed 7 0b0110011
  | .sll => fixed 7 0b0000000 ++ free 5 ++ free 5 ++ fixed 3 0b001 ++ free 5 ++ fixed 7 0b0110011
  | .srl => fixed 7 0b0000000 ++ free 5 ++ free 5 ++ fixed 3 0b101 ++ free 5 ++ fixed 7 0b0110011
  | .sra => fixed 7 0b0100000 ++ free 5 ++ free 5 ++ fixed 3 0b101 ++ free 5 ++ fixed 7 0b0110011
  | .slt => fixed 7 0b0000000 ++ free 5 ++ free 5 ++ fixed 3 0b010 ++ free 5 ++ fixed 7 0b0110011
  | .sltu => fixed 7 0b0000000 ++ free 5 ++ free 5 ++ fixed 3 0b011 ++ free 5 ++ fixed 7 0b0110011
  | .mul => fixed 7 0b0000001 ++ free 5 ++ free 5 ++ fixed 3 0b000 ++ free 5 ++ fixed 7 0b0110011
  | .mulh => fixed 7 0b0000001 ++ free 5 ++ free 5 ++ fixed 3 0b001 ++ free 5 ++ fixed 7 0b0110011
  | .div => fixed 7 0b0000001 ++ free 5 ++ free 5 ++ fixed 3 0b100 ++ free 5 ++ fixed 7 0b0110011
  | .rem => fixed 7 0b0000001 ++ free 5 ++ free 5 ++ fixed 3 0b110 ++ free 5 ++ fixed 7 0b0110011
  | .divu => fixed 7 0b0000001 ++ free 5 ++ free 5 ++ fixed 3 0b101 ++ free 5 ++ fixed 7 0b0110011
  | .remu => fixed 7 0b0000001 ++ free 5 ++ free 5 ++ fixed 3 0b111 ++ free 5 ++ fixed 7 0b0110011
  | .jal => free 7 ++ free 5 ++ free 5 ++ free 3 ++ free 5 ++ fixed 7 0b1101111
  | .jalr => free 7 ++ free 5 ++ free 5 ++ fixed 3 0b000 ++ free 5 ++ fixed 7 0b1100111
  | .beq => free 7 ++ free 5 ++ free 5 ++ fixed 3 0b000 ++ free 5 ++ fixed 7 0b1100011
  | .bne => free 7 ++ free 5 ++ free 5 ++ fixed 3 0b001 ++ free 5 ++ fixed 7 0b1100011
  | .blt => free 7 ++ free 5 ++ free 5 ++ fixed 3 0b100 ++ free 5 ++ fixed 7 0b1100011
  | .bge => free 7 ++ free 5 ++ free 5 ++ fixed 3 0b101 ++ free 5 ++ fixed 7 0b1100011
  | .ebreak => fixed 7 0b0000000 ++ fixed 5 0b00001 ++ fixed 5 0b00000 ++ fixed 3 0b000 ++ fixed 5 0b00000 ++ fixed 7 0b1110011
  | .inv => free 7 ++ free 5 ++ free 5 ++ free 3 ++ free 5 ++ free 7

/-! ### Fields and immediates (R51, R53 to R58) -/

/-- `rd = w[11:7]` (R51, R87). -/
def fieldRd (w : Word) : RegIndex := w.extractLsb' 7 5

/-- `rs1 = w[19:15]` (R51, R87). -/
def fieldRs1 (w : Word) : RegIndex := w.extractLsb' 15 5

/-- `rs2 = w[24:20]` (R51, R87). -/
def fieldRs2 (w : Word) : RegIndex := w.extractLsb' 20 5

/-- The I immediate `sext_12(w[31:20])` (R53). -/
def immI (w : Word) : Word :=
  (w.extractLsb' 20 12).signExtend 32

/-- The S immediate `sext_12(w[31:25] ++ w[11:7])` (R54). -/
def immS (w : Word) : Word :=
  (w.extractLsb' 25 7 ++ w.extractLsb' 7 5).signExtend 32

/-- The B immediate `sext_13(w[31] ++ w[7] ++ w[30:25] ++ w[11:8] ++ 0)` (R55). -/
def immB (w : Word) : Word :=
  (w.extractLsb' 31 1 ++ w.extractLsb' 7 1 ++ w.extractLsb' 25 6 ++ w.extractLsb' 8 4 ++ 0#1).signExtend 32

/-- The U immediate `w[31:12] ++ 0x000` (R56; 90_conflicts.md C1). -/
def immU (w : Word) : Word :=
  w.extractLsb' 12 20 ++ 0#12

/-- The J immediate `sext_21(w[31] ++ w[19:12] ++ w[20] ++ w[30:21] ++ 0)` (R57). -/
def immJ (w : Word) : Word :=
  (w.extractLsb' 31 1 ++ w.extractLsb' 12 8 ++ w.extractLsb' 20 1 ++ w.extractLsb' 21 10 ++ 0#1).signExtend 32

/-- The immediate is chosen by the matched row's format and by nothing else; R and N have none and
leave it 0 (R58, R88). -/
def immOf (f : Format) (w : Word) : Word :=
  match f with
  | .i => immI w
  | .s => immS w
  | .b => immB w
  | .u => immU w
  | .j => immJ w
  | .r | .n => 0

/-- What EXTRACT leaves in the DecodeContext (R21, R87, R88). Every index is computed for every word; a
format that does not use one never looks at it. -/
structure Fields where
  rd : RegIndex
  rs1 : RegIndex
  rs2 : RegIndex
  imm : Word
  deriving DecidableEq, Repr

/-- EXTRACT: the fields of a word under a format (R87, R88). -/
def extract (f : Format) (w : Word) : Fields :=
  { rd := fieldRd w, rs1 := fieldRs1 w, rs2 := fieldRs2 w, imm := immOf f w }

/-- The instruction of a row with the fields its format uses (R52, R87). -/
def assemble (m : Mnemonic) (f : Fields) : Instr :=
  match m with
  | .lui => .lui f.rd f.imm
  | .auipc => .auipc f.rd f.imm
  | .lw => .lw f.rd f.rs1 f.imm
  | .lh => .lh f.rd f.rs1 f.imm
  | .lhu => .lhu f.rd f.rs1 f.imm
  | .lbu => .lbu f.rd f.rs1 f.imm
  | .sw => .sw f.rs1 f.rs2 f.imm
  | .sh => .sh f.rs1 f.rs2 f.imm
  | .sb => .sb f.rs1 f.rs2 f.imm
  | .addi => .addi f.rd f.rs1 f.imm
  | .andi => .andi f.rd f.rs1 f.imm
  | .xori => .xori f.rd f.rs1 f.imm
  | .slli => .slli f.rd f.rs1 f.imm
  | .srli => .srli f.rd f.rs1 f.imm
  | .srai => .srai f.rd f.rs1 f.imm
  | .sltiu => .sltiu f.rd f.rs1 f.imm
  | .add => .add f.rd f.rs1 f.rs2
  | .sub => .sub f.rd f.rs1 f.rs2
  | .and => .and f.rd f.rs1 f.rs2
  | .or => .or f.rd f.rs1 f.rs2
  | .xor => .xor f.rd f.rs1 f.rs2
  | .sll => .sll f.rd f.rs1 f.rs2
  | .srl => .srl f.rd f.rs1 f.rs2
  | .sra => .sra f.rd f.rs1 f.rs2
  | .slt => .slt f.rd f.rs1 f.rs2
  | .sltu => .sltu f.rd f.rs1 f.rs2
  | .mul => .mul f.rd f.rs1 f.rs2
  | .mulh => .mulh f.rd f.rs1 f.rs2
  | .div => .div f.rd f.rs1 f.rs2
  | .rem => .rem f.rd f.rs1 f.rs2
  | .divu => .divu f.rd f.rs1 f.rs2
  | .remu => .remu f.rd f.rs1 f.rs2
  | .jal => .jal f.rd f.imm
  | .jalr => .jalr f.rd f.rs1 f.imm
  | .beq => .beq f.rs1 f.rs2 f.imm
  | .bne => .bne f.rs1 f.rs2 f.imm
  | .blt => .blt f.rs1 f.rs2 f.imm
  | .bge => .bge f.rs1 f.rs2 f.imm
  | .ebreak => .ebreak
  | .inv => .inv

/-- MATCH and EXTRACT: the instruction of a 32-bit word (R61, R85 to R88). -/
def decodeWord (w : Word) : Instr :=
  let e := matchWord w
  assemble e.mnemonic (extract e.format w)

/-! ### Bytes (R31, R34, R50) -/

/-- Why a list of bytes has no instruction at its head. -/
inductive DecodeReject where
  /-- Fewer than the four bytes of a word are left (R50: one length, 32 bits). -/
  | tooShort (bytes : Nat)
  deriving DecidableEq, Repr

/-- Four bytes as a word, the first at the lowest address: little-endian (R31, R34). -/
def wordOfBytes (b0 b1 b2 b3 : Byte) : Word :=
  b3 ++ b2 ++ b1 ++ b0

/-- The instruction at the head of a list of bytes, and the bytes after it. Total: it rejects by name
when there is no whole word. -/
def decode : List Byte → Except DecodeReject (Instr × List Byte)
  | b0 :: b1 :: b2 :: b3 :: rest => .ok (decodeWord (wordOfBytes b0 b1 b2 b3), rest)
  | short => .error (.tooShort short.length)

/-- The bytes of a word as memory holds them, lowest address first (R34). -/
def bytesOfWord (w : Word) : List Byte :=
  [w.extractLsb' 0 8, w.extractLsb' 8 8, w.extractLsb' 16 8, w.extractLsb' 24 8]

/-- The word whose low `nbits` bits are those of `w` and whose other bits are 0. -/
def tableWord (nbits w : Nat) : Word :=
  BitVec.ofNat 32 (w % 2 ^ nbits)

/-- The instruction the decoder reads from a word of the opcode table: laid out as memory stores it,
then decoded. -/
def decodeTableWord (nbits w : Nat) : Option Instr :=
  match decode (bytesOfWord (tableWord nbits w)) with
  | .ok (i, _) => some i
  | .error _ => none

/-! ### The encoder (R52, R62)

The layouts are R52's; the opcode, funct3 and funct7 values are written from the opcode map R62, not
from the masks of R60. -/

/-- R format: funct7, rs2, rs1, funct3, rd, opcode (R52). -/
def encR (f7 : BitVec 7) (f3 : BitVec 3) (op : BitVec 7) (rd rs1 rs2 : RegIndex) : Word :=
  f7 ++ rs2 ++ rs1 ++ f3 ++ rd ++ op

/-- I format: imm[11:0], rs1, funct3, rd, opcode (R52). -/
def encI (f3 : BitVec 3) (op : BitVec 7) (rd rs1 : RegIndex) (imm : Word) : Word :=
  imm.extractLsb' 0 12 ++ rs1 ++ f3 ++ rd ++ op

/-- The shift form of I: imm[11:5] fixed, imm[4:0], rs1, funct3, rd, opcode (R52, R63). -/
def encShift (f7 : BitVec 7) (f3 : BitVec 3) (op : BitVec 7) (rd rs1 : RegIndex) (imm : Word) : Word :=
  f7 ++ imm.extractLsb' 0 5 ++ rs1 ++ f3 ++ rd ++ op

/-- S format: imm[11:5], rs2, rs1, funct3, imm[4:0], opcode (R52). -/
def encS (f3 : BitVec 3) (op : BitVec 7) (rs1 rs2 : RegIndex) (imm : Word) : Word :=
  imm.extractLsb' 5 7 ++ rs2 ++ rs1 ++ f3 ++ imm.extractLsb' 0 5 ++ op

/-- B format: imm[12], imm[10:5], rs2, rs1, funct3, imm[4:1], imm[11], opcode (R52). -/
def encB (f3 : BitVec 3) (op : BitVec 7) (rs1 rs2 : RegIndex) (imm : Word) : Word :=
  imm.extractLsb' 12 1 ++ imm.extractLsb' 5 6 ++ rs2 ++ rs1 ++ f3 ++ imm.extractLsb' 1 4 ++
    imm.extractLsb' 11 1 ++ op

/-- U format: imm[31:12], rd, opcode (R52). -/
def encU (op : BitVec 7) (rd : RegIndex) (imm : Word) : Word :=
  imm.extractLsb' 12 20 ++ rd ++ op

/-- J format: imm[20], imm[10:1], imm[11], imm[19:12], rd, opcode (R52). -/
def encJ (op : BitVec 7) (rd : RegIndex) (imm : Word) : Word :=
  imm.extractLsb' 20 1 ++ imm.extractLsb' 1 10 ++ imm.extractLsb' 11 1 ++ imm.extractLsb' 12 8 ++ rd ++ op

/-- The word of a well-formed instruction. `inv` stands for every word no other row matches; its word
here is the all-zero word (R66, log 10). -/
def encodeWord : Instr → Word
  | .lui rd imm => encU 0b0110111 rd imm
  | .auipc rd imm => encU 0b0010111 rd imm
  | .lw rd rs1 imm => encI 0b010 0b0000011 rd rs1 imm
  | .lh rd rs1 imm => encI 0b001 0b0000011 rd rs1 imm
  | .lhu rd rs1 imm => encI 0b101 0b0000011 rd rs1 imm
  | .lbu rd rs1 imm => encI 0b100 0b0000011 rd rs1 imm
  | .sw rs1 rs2 imm => encS 0b010 0b0100011 rs1 rs2 imm
  | .sh rs1 rs2 imm => encS 0b001 0b0100011 rs1 rs2 imm
  | .sb rs1 rs2 imm => encS 0b000 0b0100011 rs1 rs2 imm
  | .addi rd rs1 imm => encI 0b000 0b0010011 rd rs1 imm
  | .andi rd rs1 imm => encI 0b111 0b0010011 rd rs1 imm
  | .xori rd rs1 imm => encI 0b100 0b0010011 rd rs1 imm
  | .slli rd rs1 imm => encShift 0b0000000 0b001 0b0010011 rd rs1 imm
  | .srli rd rs1 imm => encShift 0b0000000 0b101 0b0010011 rd rs1 imm
  | .srai rd rs1 imm => encShift 0b0100000 0b101 0b0010011 rd rs1 imm
  | .sltiu rd rs1 imm => encI 0b011 0b0010011 rd rs1 imm
  | .add rd rs1 rs2 => encR 0b0000000 0b000 0b0110011 rd rs1 rs2
  | .sub rd rs1 rs2 => encR 0b0100000 0b000 0b0110011 rd rs1 rs2
  | .and rd rs1 rs2 => encR 0b0000000 0b111 0b0110011 rd rs1 rs2
  | .or rd rs1 rs2 => encR 0b0000000 0b110 0b0110011 rd rs1 rs2
  | .xor rd rs1 rs2 => encR 0b0000000 0b100 0b0110011 rd rs1 rs2
  | .sll rd rs1 rs2 => encR 0b0000000 0b001 0b0110011 rd rs1 rs2
  | .srl rd rs1 rs2 => encR 0b0000000 0b101 0b0110011 rd rs1 rs2
  | .sra rd rs1 rs2 => encR 0b0100000 0b101 0b0110011 rd rs1 rs2
  | .slt rd rs1 rs2 => encR 0b0000000 0b010 0b0110011 rd rs1 rs2
  | .sltu rd rs1 rs2 => encR 0b0000000 0b011 0b0110011 rd rs1 rs2
  | .mul rd rs1 rs2 => encR 0b0000001 0b000 0b0110011 rd rs1 rs2
  | .mulh rd rs1 rs2 => encR 0b0000001 0b001 0b0110011 rd rs1 rs2
  | .div rd rs1 rs2 => encR 0b0000001 0b100 0b0110011 rd rs1 rs2
  | .rem rd rs1 rs2 => encR 0b0000001 0b110 0b0110011 rd rs1 rs2
  | .divu rd rs1 rs2 => encR 0b0000001 0b101 0b0110011 rd rs1 rs2
  | .remu rd rs1 rs2 => encR 0b0000001 0b111 0b0110011 rd rs1 rs2
  | .jal rd imm => encJ 0b1101111 rd imm
  | .jalr rd rs1 imm => encI 0b000 0b1100111 rd rs1 imm
  | .beq rs1 rs2 imm => encB 0b000 0b1100011 rs1 rs2 imm
  | .bne rs1 rs2 imm => encB 0b001 0b1100011 rs1 rs2 imm
  | .blt rs1 rs2 imm => encB 0b100 0b1100011 rs1 rs2 imm
  | .bge rs1 rs2 imm => encB 0b101 0b1100011 rs1 rs2 imm
  | .ebreak => 0x00100073
  | .inv => 0x00000000

/-- The bytes of a well-formed instruction, lowest address first (R34, R50). -/
def encode (i : Instr) : List Byte :=
  bytesOfWord (encodeWord i)

end Sys2Proof
end

