-- ==== Sys2Proof/Config.lean ====
section
/-!
DEFINITION. What the spec leaves to a parameter (00_scope.md R6): how the memory collaborator's answer
MemAdmits is written down as plain data, and the value State.reset gives each of the five parameters.
Nothing of the machine rests on these values: the start state for every value of the parameters is
State.boot, and every statement about a step is about every state.
-/

namespace Sys2Proof

/-- The kind of a memory access (20_memory.md R31 to R33): MemAdmits may answer differently for each. -/
inductive AccessKind where
  | fetch
  | read
  | write
  deriving DecidableEq, Repr

/-- The width of a memory access: 1, 2 or 4 bytes (R5, R36). -/
inductive Width where
  | byte
  | half
  | word
  deriving DecidableEq, Repr

/-- The number of bytes of an access (R36). -/
def Width.bytes : Width → Nat
  | .byte => 1
  | .half => 2
  | .word => 4

/-- One grant of the memory collaborator: it performs an access of one of `widths` and one of `kinds`
whose bytes all lie among the `size` bytes from `base` on (addresses modulo 2^32, R38), and, where
`aligned` is set, only at a multiple of the access's width (the conservative reading of R35). -/
structure Grant where
  base : Word
  size : Nat
  widths : List Width
  kinds : List AccessKind
  aligned : Bool
  deriving DecidableEq, Repr

/-- The parameter MemAdmits (R6, R39) as plain data: an access is admitted when some grant admits it.
DESIGN CHOICE (log 3): the spec's parameter is a predicate; over the finite set of addresses, widths and
kinds a list of grants writes down every predicate. -/
abbrev AddressMap := List Grant

namespace Config

/-- The number of bytes of the address space (R30). -/
abbrev addressSpace : Nat := 2 ^ 32

/-- RESET_PC in State.reset: the spec's suggested default. PRESUMED (log 1). -/
def resetPc : Word := 0x80000000

/-- TRAP_ARG_REG in State.reset: the spec's suggested default, x10. PRESUMED (log 2). -/
def trapArgReg : RegIndex := 10

/-- MemAdmits in State.reset: every access of the whole address space. DESIGN CHOICE (log 4): "this core
does not define address bounds itself" (R39). -/
def addressMap : AddressMap :=
  [{ base := 0, size := addressSpace, widths := [.byte, .half, .word],
     kinds := [.fetch, .read, .write], aligned := false }]

/-- X_INIT in State.reset, cell n for x(n+1). DESIGN CHOICE (log 5): the spec gives no value. -/
def xInit : Vector Word 31 := Vector.replicate 31 0

/-- What a byte of memory that is not listed reads as. DESIGN CHOICE (log 6): the spec gives none. -/
abbrev unlistedByte : Byte := 0

/-- MEM_INIT in State.reset: nothing listed, no program placed (R233: placing one is the loader's work). -/
def memInit : List Host.Cell := []

end Config

end Sys2Proof
end

