-- ==== Sys2Proof/Machine/State.lean ====
section
/-!
DEFINITION. The state of the machine (10_state.md): 31 stored registers, the pc and the backing memory,
"no persistent state beyond registers/memory/PC"; beside them the two parameters of 00_scope.md R6 that
a step reads, which no step writes (log 3). What a step can end in other than a next state, and the
state after reset.
-/

namespace Sys2Proof.Machine

/-- The backing memory (R23, R30): the bytes that differ from what an unlisted byte reads as, by
address. -/
abbrev Memory := List Host.Cell

/-- The canonical form: addresses strictly rising, each inside the address space, no entry equal to what
an unlisted byte reads as. Equal memories are then equal lists. -/
abbrev Memory.wf (m : Memory) : Prop :=
  m.Pairwise (fun c d => c.1 < d.1) ∧ ∀ c ∈ m, c.1 < Config.addressSpace ∧ c.2 ≠ Config.unlistedByte

/-- The state (10_state.md). -/
structure State where
  /-- The register file: cell n is x(n+1). x0 has no cell (R10, R11, R80: it holds `x1`..`x31`). -/
  regs : Vector Word 31
  /-- The program counter (R15). -/
  pc : Word
  /-- The backing memory (R23). -/
  mem : Memory
  /-- The parameter MemAdmits (R6, R39). -/
  admits : AddressMap
  /-- The parameter TRAP_ARG_REG (R6, R190). -/
  trapArgReg : RegIndex
  deriving DecidableEq, Repr

/-- The results of a step other than Continue (R200, R202), each with what it carries and the state the
step leaves (R94, R205). Each ends the run (R207, log 7). -/
inductive Fault where
  /-- `HostTrap(pc, code)` (R203): raised by `ebreak` alone, always. Not an error: the program's own
  request to end the run. `left` is the state with pc advanced (R94). Safe: it is the spec's result. -/
  | hostTrap (pc code : Word) (left : State)
  /-- `DecodeFault(pc)` (R204): raised by `inv` alone, always, that is for a word no defined row matches.
  `left` is the state with pc advanced (R94). Safe: it is the spec's result. -/
  | decodeFault (pc : Word) (left : State)
  /-- `MemoryFault(pc, address)` (R205): raised by the fetch of any step and by every load and store when
  MemAdmits refuses the access. `left` is the state the step began in. Safe: it is the spec's result. -/
  | memoryFault (pc address : Word) (left : State)
  deriving DecidableEq, Repr

/-- Why the model gives an instruction no meaning. -/
inductive Refusal where
  /-- Answered by an arm of `exec` for an instruction without a meaning; no arm does. Safe. -/
  | notModelled (mnemonic : String)
  deriving DecidableEq, Repr

/-- The outcome of a step or of an instruction. -/
abbrev Result := Host.Outcome State Fault Refusal

/-! ### Reset (R20, R230) -/

/-- The five parameters of R6. -/
structure Boot where
  resetPc : Word
  trapArgReg : RegIndex
  admits : AddressMap
  memInit : Memory
  xInit : Vector Word 31
  deriving DecidableEq, Repr

/-- What the spec asks of the parameters: RESET_PC is even (R6, R20); and memory is written down in the
model's canonical form. TRAP_ARG_REG in 0..31 is its type. -/
abbrev Boot.wf (b : Boot) : Prop :=
  b.resetPc[0] = false ∧ b.memInit.wf

/-- The reset state for given parameters (R230). -/
def State.ofBoot (b : Boot) : State :=
  { regs := b.xInit, pc := b.resetPc, mem := b.memInit, admits := b.admits, trapArgReg := b.trapArgReg }

/-- Reset: the reset state of parameters the spec allows; an odd RESET_PC is refused (U6). -/
def State.boot (b : Boot) : Option State :=
  if b.wf then some (State.ofBoot b) else none

/-- The parameters of `State.reset` (log 1, 2, 4, 5, 6). -/
def Boot.default : Boot :=
  { resetPc := Config.resetPc, trapArgReg := Config.trapArgReg, admits := Config.addressMap,
    memInit := Config.memInit, xInit := Config.xInit }

/-- The machine right after reset with the parameters at their defaults (R230): x0 reads 0 (R11), the
pc is at RESET_PC, no program is placed (log 6). -/
def State.reset : State := State.ofBoot Boot.default

end Sys2Proof.Machine
end

