-- ==== Sys2Proof/Machine/Ops.lean ====
section
/-!
DEFINITION. The operations every instruction is written with: the register ports (10_state.md R11, R12),
the memory collaborator's three operations (20_memory.md R31 to R34), the next-pc multiplexer and the
commit (40_decode_and_step.md R92, R93), and raising a result (60_exceptions.md R202), in one place each.
-/

namespace Sys2Proof.Machine

/-! ### One field replaced -/

/-- The state with another pc. -/
def State.setPc (s : State) (d : Word) : State := { s with pc := d }

/-- The state with another memory. -/
def State.setMem (s : State) (m : Memory) : State := { s with mem := m }

/-- The state with another address map; no step uses it (R39). -/
def State.setAdmits (s : State) (m : AddressMap) : State := { s with admits := m }

/-! ### The register file -/

/-- The register read port: index 0 always reads 0 (R11). -/
def State.readReg (s : State) (i : RegIndex) : Word :=
  if i = 0#5 then 0#32 else s.regs[i.toNat - 1]'(by have := i.isLt; omega)

/-- The register write port: a write directed at index 0 changes nothing (R12, R91). -/
def State.writeReg (s : State) (i : RegIndex) (v : Word) : State :=
  if i = 0#5 then s else { s with regs := s.regs.set (i.toNat - 1) v (by have := i.isLt; omega) }

/-! ### Memory -/

/-- The byte at an address. -/
def Memory.get : Memory → Nat → Byte
  | [], _ => Config.unlistedByte
  | (k, v) :: rest, a => if a = k then v else Memory.get rest a

/-- Memory with the byte at an address set, in canonical form. -/
def Memory.set : Memory → Nat → Byte → Memory
  | [], a, v => if v = Config.unlistedByte then [] else [(a, v)]
  | (k, u) :: rest, a, v =>
    if a < k then (if v = Config.unlistedByte then (k, u) :: rest else (a, v) :: (k, u) :: rest)
    else if a = k then (if v = Config.unlistedByte then rest else (a, v) :: rest)
    else (k, u) :: Memory.set rest a v

/-- The address of byte `i` of an access at `a`, modulo 2^32 (R38). -/
def byteAddr (a : Word) (i : Nat) : Nat :=
  (a + BitVec.ofNat 32 i).toNat

/-- The bytes of an access as one unsigned value, the lowest address least significant (R32, R34). -/
def Memory.read (m : Memory) (a : Word) : Width → Word
  | .byte => (m.get (byteAddr a 0)).setWidth 32
  | .half => (m.get (byteAddr a 1) ++ m.get (byteAddr a 0)).setWidth 32
  | .word => m.get (byteAddr a 3) ++ m.get (byteAddr a 2) ++ m.get (byteAddr a 1) ++ m.get (byteAddr a 0)

/-- The memory after the `n` low bytes of `v` are stored from `a` on: byte `i` is `v[8i+7:8i]` (R33). -/
def Memory.writeBytes (m : Memory) (a v : Word) : Nat → Memory
  | 0 => m
  | n + 1 => (m.writeBytes a v n).set (byteAddr a n) (v.extractLsb' (8 * n) 8)

/-- The memory after a store of the low bytes of `v` (R33). -/
def Memory.write (m : Memory) (a : Word) (n : Width) (v : Word) : Memory :=
  m.writeBytes a v n.bytes

/-- Whether one grant admits an access: its width, its kind, its alignment, and every one of its
bytes. -/
def grantAdmits (g : Grant) (a : Word) (n : Width) (k : AccessKind) : Bool :=
  g.widths.contains n && g.kinds.contains k && (!g.aligned || a.toNat % n.bytes == 0) &&
    (List.range n.bytes).all (fun i => decide ((a + BitVec.ofNat 32 i - g.base).toNat < g.size))

/-- `MemAdmits(addr, n, kind)` (R6, R39). -/
def mapAdmits (m : AddressMap) (a : Word) (n : Width) (k : AccessKind) : Bool :=
  m.any (fun g => grantAdmits g a n k)

/-- `Fetch(pc)`: the word at the pc, or none where MemAdmits refuses (R31). -/
def State.fetch (s : State) : Option Word :=
  if mapAdmits s.admits s.pc .word .fetch then some (s.mem.read s.pc .word) else none

/-- `MemRead(addr, n)`: the unsigned value, or none where MemAdmits refuses (R32). -/
def State.memRead (s : State) (a : Word) (n : Width) : Option Word :=
  if mapAdmits s.admits a n .read then some (s.mem.read a n) else none

/-- `MemWrite(addr, n, v)`: the state with the bytes stored, or none, with no byte written, where
MemAdmits refuses (R33). -/
def State.memWrite (s : State) (a : Word) (n : Width) (v : Word) : Option State :=
  if mapAdmits s.admits a n .write then some (s.setMem (s.mem.write a n v)) else none

/-! ### The pc -/

/-- The sequential next pc, `pc + 4` modulo 2^32 (R15, R84). -/
def State.snpc (s : State) : Word := s.pc + 4#32

/-- The next-pc multiplexer: the sequential value unless the instruction overrides it (R82, R92). -/
def nextPc (taken : Bool) (target snpc : Word) : Word :=
  if taken then target else snpc

/-- COMMIT-PC: `dnpc` becomes the new pc and the step continues (R93, R201). No check is made on it. -/
def commit (dnpc : Word) (s : State) : Result :=
  .next (s.setPc dnpc)

/-- The end of an instruction that writes `rd` and assigns no `dnpc` (R91, R92). -/
def retire (rd : RegIndex) (v : Word) (s : State) : Result :=
  commit s.snpc (s.writeReg rd v)

/-- The end of an instruction that writes `rd` and assigns `dnpc` (R91, R92). -/
def retireTo (rd : RegIndex) (v dnpc : Word) (s : State) : Result :=
  commit dnpc (s.writeReg rd v)

/-! ### Raising a result (R202, R207)

Trap entry on this machine is the return of the result to the caller of `step`: nothing is saved and
control goes nowhere inside the machine. There is no return from a trap (R209). -/

/-- Why a step does not continue (R200). -/
inductive Cause where
  | hostTrap (code : Word)
  | decodeFault
  | memoryFault (address : Word)
  deriving DecidableEq, Repr

/-- Raise a result: it carries the instruction's own pc; a host trap and a decode fault leave the state
with pc + 4 committed (R94), a memory fault leaves the state as the step found it (R205). -/
def raise (c : Cause) (s : State) : Result :=
  match c with
  | .hostTrap code => .fault (.hostTrap s.pc code (s.setPc s.snpc))
  | .decodeFault => .fault (.decodeFault s.pc (s.setPc s.snpc))
  | .memoryFault address => .fault (.memoryFault s.pc address s)

/-! ### Loads and stores (R114, R123) -/

/-- A load: one read of `n` bytes at `addr`, extended by `ext` into `rd`; a refused read raises a memory
fault and writes nothing (R114). -/
def loadInto (rd : RegIndex) (addr : Word) (n : Width) (ext : Word → Word) (s : State) : Result :=
  match s.memRead addr n with
  | some v => retire rd (ext v) s
  | none => raise (.memoryFault addr) s

/-- A store: one write of the low bytes of `v` at `addr`; a refused write raises a memory fault and
writes no byte (R123). -/
def storeTo (addr : Word) (n : Width) (v : Word) (s : State) : Result :=
  match s.memWrite addr n v with
  | some t => commit s.snpc t
  | none => raise (.memoryFault addr) s

/-! ### Placing a word where the next step fetches (for `State.withFetchWord`) -/

/-- The address map with the fetch of a word at `pc` admitted. -/
def admitFetch (m : AddressMap) (pc : Word) : AddressMap :=
  if mapAdmits m pc .word .fetch then m
  else { base := pc, size := 4, widths := [.word], kinds := [.fetch], aligned := false } :: m

/-- The state with a word stored at its pc and the fetch of it admitted; nothing else changes. -/
def State.placeWord (s : State) (w : Word) : State :=
  (s.setMem (s.mem.write s.pc .word w)).setAdmits (admitFetch s.admits s.pc)

end Sys2Proof.Machine
end

