-- ==== Sys2Proof/Machine/Operands.lean ====
section
/-!
DEFINITION. The operand forms: effective addresses, jump and branch targets, shift amounts, and how a
loaded value is extended (20_memory.md R36, R38; 40_decode_and_step.md R92).
-/

namespace Sys2Proof.Machine

/-- The effective address of a load or store, `src1 + imm` modulo 2^32 (R38, R114, R123). -/
def effAddr (s : State) (rs1 : RegIndex) (imm : Word) : Word :=
  s.readReg rs1 + imm

/-- A value with bit 0 forced to 0 (R92). -/
def clearBit0 (t : Word) : Word := t &&& 0xFFFFFFFE#32

/-- The target of `jal`: `pc + imm`, no bit forced (R170). -/
def jalTarget (s : State) (imm : Word) : Word := s.pc + imm

/-- The target of a taken branch: `(pc + imm) & 0xFFFFFFFE` (R180). -/
def branchTarget (s : State) (imm : Word) : Word := clearBit0 (s.pc + imm)

/-- The target of `jalr`: `(src1 + imm) & 0xFFFFFFFE` (R171). -/
def jalrTarget (s : State) (rs1 : RegIndex) (imm : Word) : Word := clearBit0 (s.readReg rs1 + imm)

/-- A shift amount: the low 5 bits, 0..31 (R63, R145). -/
def shiftAmount (v : Word) : Nat := (v.extractLsb' 0 5).toNat

/-- A loaded value as it is: `lw` is full width, `lhu` and `lbu` are zero-extended by the read itself,
which answers an unsigned value (R32, R36). -/
def extZero (v : Word) : Word := v

/-- A loaded halfword sign-extended from 16 bits (R111). -/
def extSign16 (v : Word) : Word := (v.setWidth 16).signExtend 32

end Sys2Proof.Machine
end

