-- ==== Sys2Proof/Machine/Arithmetic.lean ====
section
/-!
DEFINITION. The integer arithmetic of the machine (46_muldiv.md R167), every value 32 bits: shifts, the
products and the divisions. Products and divisions are computed exactly on integers and narrowed at the
end. Addition, subtraction and the bitwise operations are the word's own (R8).
-/

namespace Sys2Proof.Machine

/-- `a << n`: zeros enter at bit 0 (R133, R145). -/
def shiftLeft (a : Word) (n : Nat) : Word := a <<< n

/-- `a >>u n`: zeros enter at bit 31 (R134, R146). -/
def shiftRightLogical (a : Word) (n : Nat) : Word := a >>> n

/-- `a >>s n`: copies of bit 31 enter at bit 31 (R135, R147). -/
def shiftRightArith (a : Word) (n : Nat) : Word := a.sshiftRight n

/-- Bits 31:0 of the product (R160). -/
def mulLow (a b : Word) : Word := BitVec.ofInt 32 (a.toInt * b.toInt)

/-- Bits 63:32 of the exact product of the signed readings (R161). -/
def mulHigh (a b : Word) : Word :=
  (BitVec.ofInt 64 (a.toInt * b.toInt)).extractLsb' 32 32

/-- Signed quotient, truncating toward zero; by zero all ones (D6); `0x80000000 / 0xFFFFFFFF` gives
`0x80000000` (D7) (R162). -/
def divSigned (a b : Word) : Word :=
  if b = 0#32 then 0xFFFFFFFF#32
  else if a = 0x80000000#32 ∧ b = 0xFFFFFFFF#32 then 0x80000000#32
  else BitVec.ofInt 32 (a.toInt.tdiv b.toInt)

/-- Signed remainder, with the dividend's sign; by zero the dividend (D6); `0x80000000 / 0xFFFFFFFF`
gives 0 (D7) (R163). -/
def remSigned (a b : Word) : Word :=
  if b = 0#32 then a
  else if a = 0x80000000#32 ∧ b = 0xFFFFFFFF#32 then 0#32
  else BitVec.ofInt 32 (a.toInt - a.toInt.tdiv b.toInt * b.toInt)

/-- Unsigned quotient; by zero all ones (D6) (R164). -/
def divUnsigned (a b : Word) : Word :=
  if b = 0#32 then 0xFFFFFFFF#32 else BitVec.ofNat 32 (a.toNat / b.toNat)

/-- Unsigned remainder; by zero the dividend (D6) (R165). -/
def remUnsigned (a b : Word) : Word :=
  if b = 0#32 then a else BitVec.ofNat 32 (a.toNat % b.toNat)

end Sys2Proof.Machine
end

