-- ==== Sys2Proof/Machine/AluImmediate.lean ====
section
/-!
DEFINITION. The register-immediate ALU instructions (44_alu_immediate.md R130 to R137). Sources are read before the
destination is written; nothing is recorded of an overflow (R137).
-/

namespace Sys2Proof.Machine

/-- `x[rd] <- src1 + imm` (R130). -/
def execAddi (rd rs1 : RegIndex) (imm : Word) (s : State) : Result :=
  retire rd (s.readReg rs1 + imm) s

/-- `x[rd] <- src1 & imm`, the immediate sign-extended (R131). -/
def execAndi (rd rs1 : RegIndex) (imm : Word) (s : State) : Result :=
  retire rd (s.readReg rs1 &&& imm) s

/-- `x[rd] <- src1 ^ imm`: exclusive or (R132; 90_conflicts.md C5). -/
def execXori (rd rs1 : RegIndex) (imm : Word) (s : State) : Result :=
  retire rd (s.readReg rs1 ^^^ imm) s

/-- `x[rd] <- src1 << imm[4:0]` (R133). -/
def execSlli (rd rs1 : RegIndex) (imm : Word) (s : State) : Result :=
  retire rd (shiftLeft (s.readReg rs1) (shiftAmount imm)) s

/-- `x[rd] <- src1 >>u imm[4:0]` (R134). -/
def execSrli (rd rs1 : RegIndex) (imm : Word) (s : State) : Result :=
  retire rd (shiftRightLogical (s.readReg rs1) (shiftAmount imm)) s

/-- `x[rd] <- src1 >>s imm[4:0]` (R135). -/
def execSrai (rd rs1 : RegIndex) (imm : Word) (s : State) : Result :=
  retire rd (shiftRightArith (s.readReg rs1) (shiftAmount imm)) s

/-- `x[rd] <- (src1 <u imm) ? 1 : 0`, the sign-extended immediate compared as unsigned (R136, D23). -/
def execSltiu (rd rs1 : RegIndex) (imm : Word) (s : State) : Result :=
  retire rd (boolWord (ltUnsigned (s.readReg rs1) imm)) s

end Sys2Proof.Machine
end

