-- ==== Sys2Proof/Machine/AluRegister.lean ====
section
/-!
DEFINITION. The register-register ALU instructions (45_alu_register.md R140 to R150). Sources are read before the
destination is written; nothing is recorded of an overflow (R150).
-/

namespace Sys2Proof.Machine

/-- `x[rd] <- src1 + src2` (R140). -/
def execAdd (rd rs1 rs2 : RegIndex) (s : State) : Result :=
  retire rd (s.readReg rs1 + s.readReg rs2) s

/-- `x[rd] <- src1 - src2` (R141). -/
def execSub (rd rs1 rs2 : RegIndex) (s : State) : Result :=
  retire rd (s.readReg rs1 - s.readReg rs2) s

/-- `x[rd] <- src1 & src2` (R142). -/
def execAnd (rd rs1 rs2 : RegIndex) (s : State) : Result :=
  retire rd (s.readReg rs1 &&& s.readReg rs2) s

/-- `x[rd] <- src1 | src2` (R143). -/
def execOr (rd rs1 rs2 : RegIndex) (s : State) : Result :=
  retire rd (s.readReg rs1 ||| s.readReg rs2) s

/-- `x[rd] <- src1 ^ src2` (R144). -/
def execXor (rd rs1 rs2 : RegIndex) (s : State) : Result :=
  retire rd (s.readReg rs1 ^^^ s.readReg rs2) s

/-- `x[rd] <- src1 << src2[4:0]` (R145). -/
def execSll (rd rs1 rs2 : RegIndex) (s : State) : Result :=
  retire rd (shiftLeft (s.readReg rs1) (shiftAmount (s.readReg rs2))) s

/-- `x[rd] <- src1 >>u src2[4:0]` (R146). -/
def execSrl (rd rs1 rs2 : RegIndex) (s : State) : Result :=
  retire rd (shiftRightLogical (s.readReg rs1) (shiftAmount (s.readReg rs2))) s

/-- `x[rd] <- src1 >>s src2[4:0]` (R147). -/
def execSra (rd rs1 rs2 : RegIndex) (s : State) : Result :=
  retire rd (shiftRightArith (s.readReg rs1) (shiftAmount (s.readReg rs2))) s

/-- `x[rd] <- (src1 <s src2) ? 1 : 0` (R148). -/
def execSlt (rd rs1 rs2 : RegIndex) (s : State) : Result :=
  retire rd (boolWord (ltSigned (s.readReg rs1) (s.readReg rs2))) s

/-- `x[rd] <- (src1 <u src2) ? 1 : 0` (R149). -/
def execSltu (rd rs1 rs2 : RegIndex) (s : State) : Result :=
  retire rd (boolWord (ltUnsigned (s.readReg rs1) (s.readReg rs2))) s

end Sys2Proof.Machine
end

