-- ==== Sys2Proof/Machine/Branches.lean ====
section
/-!
DEFINITION. The conditional branches (48_branches.md R180 to R184). A branch writes no register; its target is
relative to its own address.
-/

namespace Sys2Proof.Machine

/-- `if src1 = src2 then dnpc <- (pc + imm) & 0xFFFFFFFE` (R181). -/
def execBeq (rs1 rs2 : RegIndex) (imm : Word) (s : State) : Result :=
  commit (nextPc (eqBits (s.readReg rs1) (s.readReg rs2)) (branchTarget s imm) s.snpc) s

/-- `if src1 != src2 then dnpc <- (pc + imm) & 0xFFFFFFFE` (R182). -/
def execBne (rs1 rs2 : RegIndex) (imm : Word) (s : State) : Result :=
  commit (nextPc (!eqBits (s.readReg rs1) (s.readReg rs2)) (branchTarget s imm) s.snpc) s

/-- `if src1 <s src2 then dnpc <- (pc + imm) & 0xFFFFFFFE` (R183). -/
def execBlt (rs1 rs2 : RegIndex) (imm : Word) (s : State) : Result :=
  commit (nextPc (ltSigned (s.readReg rs1) (s.readReg rs2)) (branchTarget s imm) s.snpc) s

/-- `if src1 >=s src2 then dnpc <- (pc + imm) & 0xFFFFFFFE` (R184). -/
def execBge (rs1 rs2 : RegIndex) (imm : Word) (s : State) : Result :=
  commit (nextPc (!ltSigned (s.readReg rs1) (s.readReg rs2)) (branchTarget s imm) s.snpc) s

end Sys2Proof.Machine
end

