-- ==== Sys2Proof/Machine/Jumps.lean ====
section
/-!
DEFINITION. The unconditional jumps (47_jumps.md R170 to R172): both link `snpc` and always assign the
next pc. The target is not checked (D19).
-/

namespace Sys2Proof.Machine

/-- `x[rd] <- snpc; dnpc <- pc + imm` (R170). -/
def execJal (rd : RegIndex) (imm : Word) (s : State) : Result :=
  retireTo rd s.snpc (jalTarget s imm) s

/-- `x[rd] <- snpc; dnpc <- (src1 + imm) & 0xFFFFFFFE`, `src1` read before `rd` is written (R171). -/
def execJalr (rd rs1 : RegIndex) (imm : Word) (s : State) : Result :=
  retireTo rd s.snpc (jalrTarget s rs1 imm) s

end Sys2Proof.Machine
end

