-- ==== Sys2Proof/Machine/Loads.lean ====
section
/-!
DEFINITION. The loads (42_loads.md R110 to R114).
-/

namespace Sys2Proof.Machine

/-- `x[rd] <- MemRead(src1 + imm, 4)` (R110). -/
def execLw (rd rs1 : RegIndex) (imm : Word) (s : State) : Result :=
  loadInto rd (effAddr s rs1 imm) .word extZero s

/-- `x[rd] <- sext_16(MemRead(src1 + imm, 2))` (R111). -/
def execLh (rd rs1 : RegIndex) (imm : Word) (s : State) : Result :=
  loadInto rd (effAddr s rs1 imm) .half extSign16 s

/-- `x[rd] <- zext_16(MemRead(src1 + imm, 2))` (R112). -/
def execLhu (rd rs1 : RegIndex) (imm : Word) (s : State) : Result :=
  loadInto rd (effAddr s rs1 imm) .half extZero s

/-- `x[rd] <- zext_8(MemRead(src1 + imm, 1))` (R113). -/
def execLbu (rd rs1 : RegIndex) (imm : Word) (s : State) : Result :=
  loadInto rd (effAddr s rs1 imm) .byte extZero s

end Sys2Proof.Machine
end

