-- ==== Sys2Proof/Machine/MulDiv.lean ====
section
/-!
DEFINITION. The multiply and divide instructions (46_muldiv.md R160 to R167). Division by zero and signed overflow
give values, never a fault (R166).
-/

namespace Sys2Proof.Machine

/-- `x[rd] <- (src1 * src2)[31:0]` (R160). -/
def execMul (rd rs1 rs2 : RegIndex) (s : State) : Result :=
  retire rd (mulLow (s.readReg rs1) (s.readReg rs2)) s

/-- `x[rd] <- (signed(src1) * signed(src2))[63:32]` (R161). -/
def execMulh (rd rs1 rs2 : RegIndex) (s : State) : Result :=
  retire rd (mulHigh (s.readReg rs1) (s.readReg rs2)) s

/-- The signed quotient (R162). -/
def execDiv (rd rs1 rs2 : RegIndex) (s : State) : Result :=
  retire rd (divSigned (s.readReg rs1) (s.readReg rs2)) s

/-- The signed remainder (R163). -/
def execRem (rd rs1 rs2 : RegIndex) (s : State) : Result :=
  retire rd (remSigned (s.readReg rs1) (s.readReg rs2)) s

/-- The unsigned quotient (R164). -/
def execDivu (rd rs1 rs2 : RegIndex) (s : State) : Result :=
  retire rd (divUnsigned (s.readReg rs1) (s.readReg rs2)) s

/-- The unsigned remainder (R165). -/
def execRemu (rd rs1 rs2 : RegIndex) (s : State) : Result :=
  retire rd (remUnsigned (s.readReg rs1) (s.readReg rs2)) s

end Sys2Proof.Machine
end

