-- ==== Sys2Proof/Machine/Stores.lean ====
section
/-!
DEFINITION. The stores (43_stores.md R120 to R123). The memory write takes the low bytes of the source
register: "truncating the source register value to the store width".
-/

namespace Sys2Proof.Machine

/-- `MemWrite(src1 + imm, 4, src2[31:0])` (R120). -/
def execSw (rs1 rs2 : RegIndex) (imm : Word) (s : State) : Result :=
  storeTo (effAddr s rs1 imm) .word (s.readReg rs2) s

/-- `MemWrite(src1 + imm, 2, src2[15:0])` (R121). -/
def execSh (rs1 rs2 : RegIndex) (imm : Word) (s : State) : Result :=
  storeTo (effAddr s rs1 imm) .half (s.readReg rs2) s

/-- `MemWrite(src1 + imm, 1, src2[7:0])` (R122). -/
def execSb (rs1 rs2 : RegIndex) (imm : Word) (s : State) : Result :=
  storeTo (effAddr s rs1 imm) .byte (s.readReg rs2) s

end Sys2Proof.Machine
end

