-- ==== Sys2Proof/Machine/System.lean ====
section
/-!
DEFINITION. The host trap and the invalid instruction (49_trap_and_invalid.md R190, R191): each always
ends the step with its result.
-/

namespace Sys2Proof.Machine

/-- `raise HostTrap(pc, x[TRAP_ARG_REG])` (R190). -/
def execEbreak (s : State) : Result :=
  raise (.hostTrap (s.readReg s.trapArgReg)) s

/-- `raise DecodeFault(pc)` (R191). -/
def execInv (s : State) : Result :=
  raise .decodeFault s

end Sys2Proof.Machine
end

