-- ==== Sys2Proof/Machine/UpperImmediate.lean ====
section
/-!
DEFINITION. The upper-immediate instructions (41_upper_immediate.md).
-/

namespace Sys2Proof.Machine

/-- `x[rd] <- imm` (R100). -/
def execLui (rd : RegIndex) (imm : Word) (s : State) : Result :=
  retire rd imm s

/-- `x[rd] <- pc + imm`, the pc being this instruction's address (R101). -/
def execAuipc (rd : RegIndex) (imm : Word) (s : State) : Result :=
  retire rd (s.pc + imm) s

end Sys2Proof.Machine
end

