-- ==== Sys2Proof/Machine/Step.lean ====
section
/-!
DEFINITION. The step (40_decode_and_step.md R95): FETCH, then MATCH and EXTRACT, which are the decoder,
then EXECUTE and COMMIT-PC, which are the instruction's meaning.
-/

namespace Sys2Proof.Machine

/-- One step (R83 to R95). A refused fetch raises a memory fault at the pc and changes nothing (R84). -/
def step (s : State) : Host.Outcome State Fault Refusal :=
  match s.fetch with
  | some w => exec (decodeWord w) s
  | none => raise (.memoryFault s.pc) s

/-- The state with a word of the opcode table stored where the step fetches its next instruction: the
four bytes at the pc, and the fetch of them admitted. -/
def State.withFetchWord (s : State) (nbits w : Nat) : State :=
  s.placeWord (tableWord nbits w)

end Sys2Proof.Machine
end

