-- ==== Sys2Proof/Safety.lean ====
section
/-!
DEFINITION. The terms claims are stated in: the invariant of the machine (10_state.md R24), the parts of
an outcome, how a run ends (60_exceptions.md R207, R208), and what each instruction may write, from the
summary of 40_decode_and_step.md R90.
-/

namespace Sys2Proof.Machine

/-- What holds at every step boundary (R24, R16): the pc is even; and the memory is in its canonical form,
which is the model's own. That x0 reads 0 needs no clause: it has no cell (R11). -/
abbrev State.Inv (s : State) : Prop :=
  s.pc[0] = false ∧ s.mem.wf

/-- The byte of memory at an address. -/
def State.byteAt (s : State) (a : Word) : Byte :=
  s.mem.get a.toNat

/-- The address `a` is one of the bytes of an access of width `n` at `base` (R38). -/
def InAccess (base : Word) (n : Width) (a : Word) : Prop :=
  ∃ i, i < n.bytes ∧ a = base + BitVec.ofNat 32 i

/-- The two parameters a step reads are the same in both states (R39). -/
def SameParameters (s t : State) : Prop :=
  t.admits = s.admits ∧ t.trapArgReg = s.trapArgReg

/-- Every register reads the same in both states, but for those named. -/
def SameRegsBut (s t : State) (except : List RegIndex) : Prop :=
  ∀ r, r ∉ except → t.readReg r = s.readReg r

/-- Every byte of memory is the same in both states. -/
def SameMemory (s t : State) : Prop :=
  ∀ a, t.byteAt a = s.byteAt a

/-- `t` is `s` after an instruction that writes `v` to `rd`, commits `dnpc` and does nothing else. With
`rd = x0` no register changes (R12). -/
def WritesOnly (s t : State) (rd : RegIndex) (v dnpc : Word) : Prop :=
  t.pc = dnpc ∧ (rd ≠ 0#5 → t.readReg rd = v) ∧ t.readReg 0#5 = 0#32 ∧ SameRegsBut s t [rd] ∧
    SameMemory s t ∧ SameParameters s t

/-- `t` is `s` after an instruction that commits `dnpc` and does nothing else. -/
def CommitsOnly (s t : State) (dnpc : Word) : Prop :=
  t.pc = dnpc ∧ SameRegsBut s t [] ∧ SameMemory s t ∧ SameParameters s t

/-- `t` is `s` after a store of the low bytes of `v` at `a`: byte i holds `v[8i+7:8i]`, every byte outside
the access reads as before, no register changes, the pc is `pc + 4` (R33, R123). The stored bytes are
stated of a memory in its canonical form. -/
def StoresOnly (s t : State) (a : Word) (n : Width) (v : Word) : Prop :=
  t.pc = s.pc + 4#32 ∧ SameRegsBut s t [] ∧ SameParameters s t ∧
    (∀ b, ¬ InAccess a n b → t.byteAt b = s.byteAt b) ∧
    (s.mem.wf → ∀ i, i < n.bytes → t.byteAt (a + BitVec.ofNat 32 i) = v.extractLsb' (8 * i) 8)

end Sys2Proof.Machine

namespace Sys2Proof

/-- The register an instruction writes, if it writes one (R90, third column; R91). -/
def Instr.dest? : Instr → Option RegIndex
  | .lui rd _ | .auipc rd _ => some rd
  | .lw rd _ _ | .lh rd _ _ | .lhu rd _ _ | .lbu rd _ _ => some rd
  | .sw _ _ _ | .sh _ _ _ | .sb _ _ _ => none
  | .addi rd _ _ | .andi rd _ _ | .xori rd _ _ | .slli rd _ _ => some rd
  | .srli rd _ _ | .srai rd _ _ | .sltiu rd _ _ => some rd
  | .add rd _ _ | .sub rd _ _ | .and rd _ _ | .or rd _ _ | .xor rd _ _ => some rd
  | .sll rd _ _ | .srl rd _ _ | .sra rd _ _ | .slt rd _ _ | .sltu rd _ _ => some rd
  | .mul rd _ _ | .mulh rd _ _ | .div rd _ _ | .rem rd _ _ | .divu rd _ _ | .remu rd _ _ => some rd
  | .jal rd _ => some rd
  | .jalr rd _ _ => some rd
  | .beq _ _ _ | .bne _ _ _ | .blt _ _ _ | .bge _ _ _ => none
  | .ebreak | .inv => none

/-- The data read an instruction makes: its base register, displacement and width (R36, R90). -/
def Instr.load? : Instr → Option (RegIndex × Word × Width)
  | .lw _ rs1 imm => some (rs1, imm, .word)
  | .lh _ rs1 imm | .lhu _ rs1 imm => some (rs1, imm, .half)
  | .lbu _ rs1 imm => some (rs1, imm, .byte)
  | .lui _ _ | .auipc _ _ | .sw _ _ _ | .sh _ _ _ | .sb _ _ _ => none
  | .addi _ _ _ | .andi _ _ _ | .xori _ _ _ | .slli _ _ _ | .srli _ _ _ | .srai _ _ _ | .sltiu _ _ _ => none
  | .add _ _ _ | .sub _ _ _ | .and _ _ _ | .or _ _ _ | .xor _ _ _ => none
  | .sll _ _ _ | .srl _ _ _ | .sra _ _ _ | .slt _ _ _ | .sltu _ _ _ => none
  | .mul _ _ _ | .mulh _ _ _ | .div _ _ _ | .rem _ _ _ | .divu _ _ _ | .remu _ _ _ => none
  | .jal _ _ | .jalr _ _ _ | .beq _ _ _ | .bne _ _ _ | .blt _ _ _ | .bge _ _ _ => none
  | .ebreak | .inv => none

/-- The data write an instruction makes: its base register, displacement and width (R36, R90). -/
def Instr.store? : Instr → Option (RegIndex × Word × Width)
  | .sw rs1 _ imm => some (rs1, imm, .word)
  | .sh rs1 _ imm => some (rs1, imm, .half)
  | .sb rs1 _ imm => some (rs1, imm, .byte)
  | .lui _ _ | .auipc _ _ | .lw _ _ _ | .lh _ _ _ | .lhu _ _ _ | .lbu _ _ _ => none
  | .addi _ _ _ | .andi _ _ _ | .xori _ _ _ | .slli _ _ _ | .srli _ _ _ | .srai _ _ _ | .sltiu _ _ _ => none
  | .add _ _ _ | .sub _ _ _ | .and _ _ _ | .or _ _ _ | .xor _ _ _ => none
  | .sll _ _ _ | .srl _ _ _ | .sra _ _ _ | .slt _ _ _ | .sltu _ _ _ => none
  | .mul _ _ _ | .mulh _ _ _ | .div _ _ _ | .rem _ _ _ | .divu _ _ _ | .remu _ _ _ => none
  | .jal _ _ | .jalr _ _ _ | .beq _ _ _ | .bne _ _ _ | .blt _ _ _ | .bge _ _ _ => none
  | .ebreak | .inv => none

end Sys2Proof

namespace Sys2Proof.Machine

/-- The pc of the next state, if there is one. -/
def Result.next? : Result → Option State
  | .next t => some t
  | .fault _ => none
  | .refused _ => none

/-- What ended the run, if it ended. -/
def Result.fault? : Result → Option Fault
  | .next _ => none
  | .fault f => some f
  | .refused _ => none

/-- The state a result leaves (R202). -/
def Fault.left : Fault → State
  | .hostTrap _ _ t => t
  | .decodeFault _ t => t
  | .memoryFault _ _ t => t

/-- The good end of a run (R203, R207): a host trap carrying `code`. -/
def Fault.IsGoodEnd (code : Word) : Fault → Prop
  | .hostTrap _ c _ => c = code
  | .decodeFault _ _ => False
  | .memoryFault _ _ _ => False

/-- A safe step: it continues, or it ends the run by a host trap (R203); it raises no fault. -/
def State.StepSafe (s : State) : Prop :=
  (∃ t, step s = .next t) ∨ ∃ pc code t, step s = .fault (.hostTrap pc code t)

end Sys2Proof.Machine
end

