-- ==== Sys2Proof/Certificates/Slice0/Obligations.lean ====
section
/-!
DEFINITION. The statements for the provers. Each docstring says which rule of spec/ it formalises. A
statement that rests on a decision D<n> of 92_eei_decisions.md, on an inference the spec marks as its own,
or on a log entry of this model has basis 'derived' and says so.
-/

open Sys2Proof Sys2Proof.Machine

namespace Sys2Proof.Claims

/-! ### The opcode map R62 as a decoder of its own: by fields, with no table and no masks -/

/-- `w[6:0]` (R51). -/
def opcode (w : Word) : BitVec 7 := w.extractLsb' 0 7

/-- `w[14:12]` (R51). -/
def funct3 (w : Word) : BitVec 3 := w.extractLsb' 12 3

/-- `w[31:25]` (R51). -/
def funct7 (w : Word) : BitVec 7 := w.extractLsb' 25 7

/-- R62, row 1100011: the branches. -/
def branchMap (w : Word) : Instr :=
  if funct3 w = 0b000#3 then .beq (fieldRs1 w) (fieldRs2 w) (immB w)
  else if funct3 w = 0b001#3 then .bne (fieldRs1 w) (fieldRs2 w) (immB w)
  else if funct3 w = 0b100#3 then .blt (fieldRs1 w) (fieldRs2 w) (immB w)
  else if funct3 w = 0b101#3 then .bge (fieldRs1 w) (fieldRs2 w) (immB w)
  else .inv

/-- R62, row 0000011: the loads. -/
def loadMap (w : Word) : Instr :=
  if funct3 w = 0b001#3 then .lh (fieldRd w) (fieldRs1 w) (immI w)
  else if funct3 w = 0b010#3 then .lw (fieldRd w) (fieldRs1 w) (immI w)
  else if funct3 w = 0b100#3 then .lbu (fieldRd w) (fieldRs1 w) (immI w)
  else if funct3 w = 0b101#3 then .lhu (fieldRd w) (fieldRs1 w) (immI w)
  else .inv

/-- R62, row 0100011: the stores. -/
def storeMap (w : Word) : Instr :=
  if funct3 w = 0b000#3 then .sb (fieldRs1 w) (fieldRs2 w) (immS w)
  else if funct3 w = 0b001#3 then .sh (fieldRs1 w) (fieldRs2 w) (immS w)
  else if funct3 w = 0b010#3 then .sw (fieldRs1 w) (fieldRs2 w) (immS w)
  else .inv

/-- R62, row 0010011: register-immediate. -/
def immediateMap (w : Word) : Instr :=
  if funct3 w = 0b000#3 then .addi (fieldRd w) (fieldRs1 w) (immI w)
  else if funct3 w = 0b011#3 then .sltiu (fieldRd w) (fieldRs1 w) (immI w)
  else if funct3 w = 0b100#3 then .xori (fieldRd w) (fieldRs1 w) (immI w)
  else if funct3 w = 0b111#3 then .andi (fieldRd w) (fieldRs1 w) (immI w)
  else if funct3 w = 0b001#3 then
    if funct7 w = 0b0000000#7 then .slli (fieldRd w) (fieldRs1 w) (immI w) else .inv
  else if funct3 w = 0b101#3 then
    if funct7 w = 0b0000000#7 then .srli (fieldRd w) (fieldRs1 w) (immI w)
    else if funct7 w = 0b0100000#7 then .srai (fieldRd w) (fieldRs1 w) (immI w)
    else .inv
  else .inv

/-- R62, row 0110011 with `w[31:25] = 0000000`. -/
def registerMap (w : Word) : Instr :=
  if funct3 w = 0b000#3 then .add (fieldRd w) (fieldRs1 w) (fieldRs2 w)
  else if funct3 w = 0b001#3 then .sll (fieldRd w) (fieldRs1 w) (fieldRs2 w)
  else if funct3 w = 0b010#3 then .slt (fieldRd w) (fieldRs1 w) (fieldRs2 w)
  else if funct3 w = 0b011#3 then .sltu (fieldRd w) (fieldRs1 w) (fieldRs2 w)
  else if funct3 w = 0b100#3 then .xor (fieldRd w) (fieldRs1 w) (fieldRs2 w)
  else if funct3 w = 0b101#3 then .srl (fieldRd w) (fieldRs1 w) (fieldRs2 w)
  else if funct3 w = 0b110#3 then .or (fieldRd w) (fieldRs1 w) (fieldRs2 w)
  else .and (fieldRd w) (fieldRs1 w) (fieldRs2 w)

/-- R62, row 0110011 with `w[31:25] = 0000001`. -/
def mulDivMap (w : Word) : Instr :=
  if funct3 w = 0b000#3 then .mul (fieldRd w) (fieldRs1 w) (fieldRs2 w)
  else if funct3 w = 0b001#3 then .mulh (fieldRd w) (fieldRs1 w) (fieldRs2 w)
  else if funct3 w = 0b100#3 then .div (fieldRd w) (fieldRs1 w) (fieldRs2 w)
  else if funct3 w = 0b101#3 then .divu (fieldRd w) (fieldRs1 w) (fieldRs2 w)
  else if funct3 w = 0b110#3 then .rem (fieldRd w) (fieldRs1 w) (fieldRs2 w)
  else if funct3 w = 0b111#3 then .remu (fieldRd w) (fieldRs1 w) (fieldRs2 w)
  else .inv

/-- R62 whole. -/
def opcodeMap (w : Word) : Instr :=
  if opcode w = 0b0110111#7 then .lui (fieldRd w) (immU w)
  else if opcode w = 0b0010111#7 then .auipc (fieldRd w) (immU w)
  else if opcode w = 0b1101111#7 then .jal (fieldRd w) (immJ w)
  else if opcode w = 0b1100111#7 then
    if funct3 w = 0b000#3 then .jalr (fieldRd w) (fieldRs1 w) (immI w) else .inv
  else if opcode w = 0b1100011#7 then branchMap w
  else if opcode w = 0b0000011#7 then loadMap w
  else if opcode w = 0b0100011#7 then storeMap w
  else if opcode w = 0b0010011#7 then immediateMap w
  else if opcode w = 0b0110011#7 then
    if funct7 w = 0b0000000#7 then registerMap w
    else if funct7 w = 0b0100000#7 then
      if funct3 w = 0b000#3 then .sub (fieldRd w) (fieldRs1 w) (fieldRs2 w)
      else if funct3 w = 0b101#3 then .sra (fieldRd w) (fieldRs1 w) (fieldRs2 w)
      else .inv
    else if funct7 w = 0b0000001#7 then mulDivMap w
    else .inv
  else if opcode w = 0b1110011#7 then
    if w = 0x00100073#32 then .ebreak else .inv
  else .inv

/-! ### The next-pc table R92 -/

/-- R92's table: the `dnpc` of each instruction, with the table's own masks. -/
def dnpcOf (s : State) : Instr → Word
  | .jal _ imm => s.pc + imm
  | .jalr _ rs1 imm => (s.readReg rs1 + imm) &&& 0xFFFFFFFE#32
  | .beq rs1 rs2 imm =>
    if s.readReg rs1 = s.readReg rs2 then (s.pc + imm) &&& 0xFFFFFFFE#32 else s.pc + 4#32
  | .bne rs1 rs2 imm =>
    if s.readReg rs1 ≠ s.readReg rs2 then (s.pc + imm) &&& 0xFFFFFFFE#32 else s.pc + 4#32
  | .blt rs1 rs2 imm =>
    if (s.readReg rs1).toInt < (s.readReg rs2).toInt then (s.pc + imm) &&& 0xFFFFFFFE#32 else s.pc + 4#32
  | .bge rs1 rs2 imm =>
    if (s.readReg rs1).toInt ≥ (s.readReg rs2).toInt then (s.pc + imm) &&& 0xFFFFFFFE#32 else s.pc + 4#32
  | .lui _ _ | .auipc _ _ => s.pc + 4#32
  | .lw _ _ _ | .lh _ _ _ | .lhu _ _ _ | .lbu _ _ _ | .sw _ _ _ | .sh _ _ _ | .sb _ _ _ => s.pc + 4#32
  | .addi _ _ _ | .andi _ _ _ | .xori _ _ _ | .slli _ _ _ => s.pc + 4#32
  | .srli _ _ _ | .srai _ _ _ | .sltiu _ _ _ => s.pc + 4#32
  | .add _ _ _ | .sub _ _ _ | .and _ _ _ | .or _ _ _ | .xor _ _ _ => s.pc + 4#32
  | .sll _ _ _ | .srl _ _ _ | .sra _ _ _ | .slt _ _ _ | .sltu _ _ _ => s.pc + 4#32
  | .mul _ _ _ | .mulh _ _ _ | .div _ _ _ | .rem _ _ _ | .divu _ _ _ | .remu _ _ _ => s.pc + 4#32
  | .ebreak | .inv => s.pc + 4#32

/-! ### What the instructions of one kind have in common -/

/-- The instruction `i` completes at `s`, writing `v` to `rd` and nothing else, next pc `pc + 4`. -/
def Computes (i : Instr) (s : State) (rd : RegIndex) (v : Word) : Prop :=
  ∃ t, exec i s = .next t ∧ WritesOnly s t rd v (s.pc + 4#32)

/-- What R137 says of one I-format instruction: the operands are the word's fields; in every state it
completes, writes `rd` once and nothing else, with a value that is a function of `src1` and `imm`. -/
def CommonI (c : RegIndex → RegIndex → Word → Instr) : Prop :=
  (∀ w rd rs1 imm, decodeWord w = c rd rs1 imm →
    rd = w.extractLsb' 7 5 ∧ rs1 = w.extractLsb' 15 5 ∧ imm = (w.extractLsb' 20 12).signExtend 32 ∧
      -2048 ≤ imm.toInt ∧ imm.toInt ≤ 2047) ∧
  ∃ f : Word → Word → Word, ∀ rd rs1 imm s, Computes (c rd rs1 imm) s rd (f (s.readReg rs1) imm)

/-- What R150 and R166 say of one R-format instruction: the operands are the word's fields; in every state it
completes, writes `rd` once and nothing else, with a value that is a function of `src1` and `src2`. -/
def CommonR (c : RegIndex → RegIndex → RegIndex → Instr) : Prop :=
  (∀ w rd rs1 rs2, decodeWord w = c rd rs1 rs2 →
    rd = w.extractLsb' 7 5 ∧ rs1 = w.extractLsb' 15 5 ∧ rs2 = w.extractLsb' 20 5) ∧
  ∃ f : Word → Word → Word, ∀ rd rs1 rs2 s,
    Computes (c rd rs1 rs2) s rd (f (s.readReg rs1) (s.readReg rs2))

/-- The value written by an R-format instruction is described by `P src1 src2 v`, in every state. -/
def ValueR (c : RegIndex → RegIndex → RegIndex → Instr) (P : Word → Word → Word → Prop) : Prop :=
  ∀ rd rs1 rs2 s, ∃ v, Computes (c rd rs1 rs2) s rd v ∧ P (s.readReg rs1) (s.readReg rs2) v

/-- The value written by an I-format ALU instruction is described by `P src1 imm v`, in every state. -/
def ValueI (c : RegIndex → RegIndex → Word → Instr) (P : Word → Word → Word → Prop) : Prop :=
  ∀ rd rs1 imm s, ∃ v, Computes (c rd rs1 imm) s rd v ∧ P (s.readReg rs1) imm v

/-- The branch `i` completes at `s` and changes nothing but the pc: where its condition `taken` holds, the
committed pc is even and above bit 0 is `pc + imm`; where it does not, it is `pc + 4` (R180). -/
def Branches (i : Instr) (s : State) (imm : Word) (taken : Prop) : Prop :=
  ∃ t d, exec i s = .next t ∧ CommitsOnly s t d ∧
    (taken → d[0] = false ∧ ∀ k, 0 < k → d.getLsbD k = (s.pc + imm).getLsbD k) ∧
    (¬ taken → d = s.pc + 4#32)

/-- The signed overflow of a division, `-2^31 / -1` (R162). -/
def Overflows (a b : Word) : Prop := a = 0x80000000#32 ∧ b = 0xFFFFFFFF#32

end Sys2Proof.Claims

open Sys2Proof.Claims

/-! ### Encoding -/

/-- Words of T9 decode to the instructions they stand for; the opcode values are the spec's own (D14). -/
def Obligations.SpecWordsDecode : Prop :=
  decodeWord 0xFFFFF0B7 = .lui 1 0xFFFFF000 ∧ decodeWord 0x00231283 = .lh 5 6 2 ∧
  decodeWord 0xFE731F23 = .sh 6 7 0xFFFFFFFE ∧ decodeWord 0x40435293 = .srai 5 6 0x404 ∧
  decodeWord 0x407302B3 = .sub 5 6 7 ∧ decodeWord 0x027362B3 = .rem 5 6 7 ∧
  decodeWord 0x008000EF = .jal 1 8 ∧ decodeWord 0x005100E7 = .jalr 1 2 5 ∧
  decodeWord 0x00734863 = .blt 6 7 16 ∧ decodeWord 0x00100073 = .ebreak ∧ decodeWord 0x00000073 = .inv

/-- Decoding the bytes of a well-formed instruction, whatever follows them, gives it back: no bit of an
operand is dropped (R50 to R57, R60; encodings D14; the word of `inv` is the model's choice, log 10). -/
def Obligations.DecodeOfEncode : Prop :=
  ∀ (i : Instr) (rest : List Byte), i.wf = true → decode (encode i ++ rest) = .ok (i, rest)

/-- Encoding what a word decodes to gives the word back, for every word that is an instruction: no
matched word has an ignored bit (R68, an inference the spec marks as its own). -/
def Obligations.EncodeOfDecode : Prop :=
  ∀ w : Word, decodeWord w ≠ .inv → encodeWord (decodeWord w) = w

/-- Every word decodes to a well-formed instruction: the extractor makes only immediates of its formats'
ranges, the shifts' fixed bits included (R53 to R57, R63). -/
def Obligations.DecodedIsWellFormed : Prop :=
  ∀ w : Word, (decodeWord w).wf = true

/-- MATCH selects the row of the least index whose mask and match fit the word, and one always exists,
the last mask being 0 (R85). -/
def Obligations.LeastMatchingRowSelected : Prop :=
  table.length = 40 ∧ (∃ e, table[39]? = some e ∧ e.mask = 0#32) ∧
  ∀ w : Word, ∃ k e, k < 40 ∧ table[k]? = some e ∧ w &&& e.mask = e.expected ∧
    (∀ j e', j < k → table[j]? = some e' → w &&& e'.mask ≠ e'.expected) ∧
    matchWord w = e

/-- No word matches two of rows 0 to 38 (R61, an inference the spec marks as its own). -/
def Obligations.DefinedRowsDisjoint : Prop :=
  ∀ (w : Word) (e e' : PatternEntry), e ∈ definedRows → e' ∈ definedRows →
    w &&& e.mask = e.expected → w &&& e'.mask = e'.expected → e = e'

/-- A word is `inv` exactly when it matches none of rows 0 to 38 (R66, D1). -/
def Obligations.InvalidIffNoDefinedRow : Prop :=
  ∀ w : Word, decodeWord w = .inv ↔ ∀ e ∈ definedRows, w &&& e.mask ≠ e.expected

/-- The scan of the table and the opcode map are the same decoder, operands included (R62, R86; the bit
values are D14). -/
def Obligations.TableScanIsOpcodeMap : Prop :=
  ∀ w : Word, decodeWord w = opcodeMap w

/-- The I and S immediates bit by bit, their ranges and their examples (R53, R54). -/
def Obligations.ImmediatesIS : Prop :=
  (∀ w : Word, (∀ k, k < 32 → (immI w).getLsbD k = if k < 11 then w.getLsbD (k + 20) else w.getLsbD 31) ∧
    -2048 ≤ (immI w).toInt ∧ (immI w).toInt ≤ 2047) ∧
  (∀ w : Word, (∀ k, k < 32 → (immS w).getLsbD k =
      if k < 5 then w.getLsbD (k + 7) else if k < 11 then w.getLsbD (k + 20) else w.getLsbD 31) ∧
    -2048 ≤ (immS w).toInt ∧ (immS w).toInt ≤ 2047) ∧
  (immI 0xFFF00093 = 0xFFFFFFFF ∧ immI 0x7FF00093 = 0x000007FF ∧ immI 0x80000093 = 0xFFFFF800) ∧
  (immS 0xFE112E23 = 0xFFFFFFFC ∧ immS 0x7E112FA3 = 0x000007FF ∧ immS 0x80112023 = 0xFFFFF800)

/-- The B and J immediates bit by bit, their ranges, their evenness and their examples (R55, R57). -/
def Obligations.ImmediatesBJ : Prop :=
  (∀ w : Word, (∀ k, k < 32 → (immB w).getLsbD k =
      if k < 1 then false else if k < 5 then w.getLsbD (k + 7) else if k < 11 then w.getLsbD (k + 20)
      else if k < 12 then w.getLsbD 7 else w.getLsbD 31) ∧
    -4096 ≤ (immB w).toInt ∧ (immB w).toInt ≤ 4094 ∧ (immB w).toInt % 2 = 0) ∧
  (∀ w : Word, (∀ k, k < 32 → (immJ w).getLsbD k =
      if k < 1 then false else if k < 11 then w.getLsbD (k + 20) else if k < 12 then w.getLsbD 20
      else if k < 20 then w.getLsbD k else w.getLsbD 31) ∧
    -1048576 ≤ (immJ w).toInt ∧ (immJ w).toInt ≤ 1048574 ∧ (immJ w).toInt % 2 = 0) ∧
  (immB 0xFE000EE3 = 0xFFFFFFFC ∧ immB 0x80000063 = 0xFFFFF000 ∧ immB 0x7E000FE3 = 0x00000FFE ∧
    immB 0x00000463 = 8) ∧
  (immJ 0xFFDFF0EF = 0xFFFFFFFC ∧ immJ 0x800000EF = 0xFFF00000 ∧ immJ 0x7FFFF0EF = 0x000FFFFE ∧
    immJ 0x001000EF = 0x00000800 ∧ immJ 0x000800EF = 0x00080000)

/-- The U immediate: bits 31:12 of the word in place, the low 12 bits zero, no extension (R56). -/
def Obligations.ImmediateU : Prop :=
  (∀ w : Word, immU w = w &&& 0xFFFFF000#32 ∧
    ∀ k, k < 32 → (immU w).getLsbD k = if k < 12 then false else w.getLsbD k) ∧
  immU 0xFFFFF0B7 = 0xFFFFF000 ∧ immU 0x800000B7 = 0x80000000 ∧ immU 0x000010B7 = 0x00001000

/-! ### Registers, reset, parameters -/

/-- x0 reads 0 in every state, and after any number of steps from any state (R11). -/
def Obligations.ZeroRegisterAlwaysReadsZero : Prop :=
  (∀ s : State, s.readReg 0#5 = 0#32) ∧
  ∀ (k : Nat) (s t : State), Host.Core.run Sys2Proof.core k s = .next t → t.readReg 0#5 = 0#32

/-- Sources are read before the destination is written: `addi r,r,imm` computes with the old value,
`jalr r,imm(r)` jumps to the old value and then links, and a source index of 0 reads 0 (R89). -/
def Obligations.SourcesReadBeforeDestination : Prop :=
  (∀ (r : RegIndex) (imm : Word) (s : State), r ≠ 0#5 →
    ∃ t, exec (.addi r r imm) s = .next t ∧ t.readReg r = s.readReg r + imm) ∧
  (∀ (r : RegIndex) (imm : Word) (s : State), r ≠ 0#5 →
    ∃ t, exec (.jalr r r imm) s = .next t ∧ t.pc = (s.readReg r + imm) &&& 0xFFFFFFFE#32 ∧
      t.readReg r = s.pc + 4#32) ∧
  (∀ (rd r : RegIndex) (s : State), rd ≠ 0#5 →
    ∃ t, exec (.add rd 0#5 r) s = .next t ∧ t.readReg rd = s.readReg r)

/-- The reset state for every value of the five parameters, and the refusal of an odd RESET_PC (R230, D10;
U6). `State.reset` is one of them: its parameters are the model's choice (log 1, 2, 4, 5, 6). -/
def Obligations.ResetForEveryParameter : Prop :=
  (∀ b : Boot, b.resetPc[0] = false → b.memInit.wf → ∃ s, State.boot b = some s ∧ s.pc = b.resetPc ∧
    s.readReg 0#5 = 0#32 ∧
    (∀ (n : Nat) (h : n < 31), s.readReg (BitVec.ofNat 5 (n + 1)) = b.xInit[n]) ∧
    (∀ a : Word, s.byteAt a = b.memInit.get a.toNat) ∧
    s.admits = b.admits ∧ s.trapArgReg = b.trapArgReg) ∧
  (∀ b : Boot, b.resetPc[0] = true → State.boot b = none) ∧
  ∃ b : Boot, State.boot b = some State.reset

/-- Every reset state meets the invariant (R20, R24; the memory's form is the model's, log 6). -/
def Obligations.ResetMeetsInvariant : Prop :=
  State.reset.Inv ∧ ∀ (b : Boot) (s : State), State.boot b = some s → s.Inv

/-- Every step keeps the invariant: the pc stays even (R24, R16, inferences the spec marks as its own) and
the memory stays in its canonical form (log 6). -/
def Obligations.StepKeepsInvariant : Prop :=
  ∀ s t : State, s.Inv → step s = .next t → t.Inv

/-- MemAdmits and TRAP_ARG_REG are fixed for the run: no step changes them, whatever it ends in (R39, D13;
that State holds them is log 3). -/
def Obligations.StepKeepsParameters : Prop :=
  (∀ s t : State, step s = .next t → SameParameters s t) ∧
  ∀ (s : State) (f : Fault), step s = .fault f → SameParameters s f.left

/-- Every predicate of address, width and kind is the MemAdmits of some address map (log 3): holding the
parameter as a list of grants rules no collaborator out. -/
def Obligations.EveryMemAdmitsIsAnAddressMap : Prop :=
  ∀ P : Word → Width → AccessKind → Bool, ∃ m : AddressMap, ∀ a n k, mapAdmits m a n k = P a n k

/-! ### Upper immediates and ALU -/

/-- `lui` writes its immediate, `auipc` the instruction's own pc plus its immediate modulo 2^32; nothing
else changes (R100, R101). -/
def Obligations.UpperImmediateResults : Prop :=
  (∀ rd imm s, Computes (.lui rd imm) s rd imm) ∧
  ∀ rd imm s, ∃ v, Computes (.auipc rd imm) s rd v ∧ v.toNat = (s.pc.toNat + imm.toNat) % 2 ^ 32

/-- What the seven register-immediate instructions have in common, and that the two whose exact result can
leave 32 bits take it modulo 2^32 (R137). -/
def Obligations.ImmediateAluCommon : Prop :=
  CommonI Instr.addi ∧ CommonI Instr.andi ∧ CommonI Instr.xori ∧ CommonI Instr.slli ∧
  CommonI Instr.srli ∧ CommonI Instr.srai ∧ CommonI Instr.sltiu ∧
  ValueI Instr.addi (fun a imm v => v.toNat = (a.toNat + imm.toNat) % 2 ^ 32) ∧
  ValueI Instr.slli (fun a imm v => v.toNat = a.toNat * 2 ^ (imm.toNat % 32) % 2 ^ 32)

/-- What the ten register-register instructions have in common, and that the three whose exact result can
leave 32 bits take it modulo 2^32 (R150). -/
def Obligations.RegisterAluCommon : Prop :=
  CommonR Instr.add ∧ CommonR Instr.sub ∧ CommonR Instr.and ∧ CommonR Instr.or ∧ CommonR Instr.xor ∧
  CommonR Instr.sll ∧ CommonR Instr.srl ∧ CommonR Instr.sra ∧ CommonR Instr.slt ∧ CommonR Instr.sltu ∧
  ValueR Instr.add (fun a b v => v.toNat = (a.toNat + b.toNat) % 2 ^ 32) ∧
  ValueR Instr.sub (fun a b v => (v.toNat : Int) = ((a.toNat : Int) - b.toNat) % 2 ^ 32) ∧
  ValueR Instr.sll (fun a b v => v.toNat = a.toNat * 2 ^ (b.toNat % 32) % 2 ^ 32)

/-- What the six multiply and divide instructions have in common: they complete on every operand (R166). -/
def Obligations.MulDivCommon : Prop :=
  CommonR Instr.mul ∧ CommonR Instr.mulh ∧ CommonR Instr.div ∧ CommonR Instr.rem ∧
  CommonR Instr.divu ∧ CommonR Instr.remu

/-- The value each register-immediate instruction writes, in plain arithmetic (R130 to R136; that `sltiu`
compares the sign-extended immediate is D23 and lies in R53). -/
def Obligations.ImmediateAluValues : Prop :=
  ValueI Instr.addi (fun a imm v => v.toNat = (a.toNat + imm.toNat) % 2 ^ 32) ∧
  ValueI Instr.andi (fun a imm v => ∀ k, v.getLsbD k = (a.getLsbD k && imm.getLsbD k)) ∧
  ValueI Instr.xori (fun a imm v => ∀ k, v.getLsbD k = Bool.xor (a.getLsbD k) (imm.getLsbD k)) ∧
  ValueI Instr.slli (fun a imm v => v.toNat = a.toNat * 2 ^ (imm.toNat % 32) % 2 ^ 32) ∧
  ValueI Instr.srli (fun a imm v => v.toNat = a.toNat / 2 ^ (imm.toNat % 32)) ∧
  ValueI Instr.srai (fun a imm v => v.toInt = a.toInt / 2 ^ (imm.toNat % 32)) ∧
  ValueI Instr.sltiu (fun a imm v => v = if a.toNat < imm.toNat then 1#32 else 0#32)

/-- The value each register-register instruction writes, in plain arithmetic (R140 to R149). -/
def Obligations.RegisterAluValues : Prop :=
  ValueR Instr.add (fun a b v => v.toNat = (a.toNat + b.toNat) % 2 ^ 32) ∧
  ValueR Instr.sub (fun a b v => (v.toNat : Int) = ((a.toNat : Int) - b.toNat) % 2 ^ 32) ∧
  ValueR Instr.and (fun a b v => ∀ k, v.getLsbD k = (a.getLsbD k && b.getLsbD k)) ∧
  ValueR Instr.or (fun a b v => ∀ k, v.getLsbD k = (a.getLsbD k || b.getLsbD k)) ∧
  ValueR Instr.xor (fun a b v => ∀ k, v.getLsbD k = Bool.xor (a.getLsbD k) (b.getLsbD k)) ∧
  ValueR Instr.sll (fun a b v => v.toNat = a.toNat * 2 ^ (b.toNat % 32) % 2 ^ 32) ∧
  ValueR Instr.srl (fun a b v => v.toNat = a.toNat / 2 ^ (b.toNat % 32)) ∧
  ValueR Instr.sra (fun a b v => v.toInt = a.toInt / 2 ^ (b.toNat % 32)) ∧
  ValueR Instr.slt (fun a b v => v = if a.toInt < b.toInt then 1#32 else 0#32) ∧
  ValueR Instr.sltu (fun a b v => v = if a.toNat < b.toNat then 1#32 else 0#32)

/-- `mul` gives the low 32 bits of the product, the same for signed and unsigned readings; `mulh` the high
32 bits of the exact signed product (R160, R161). -/
def Obligations.ProductValues : Prop :=
  ValueR Instr.mul (fun a b v => v.toNat = a.toNat * b.toNat % 2 ^ 32 ∧
    (v.toNat : Int) = a.toInt * b.toInt % 2 ^ 32) ∧
  ValueR Instr.mulh (fun a b v => v.toInt = a.toInt * b.toInt / 2 ^ 32)

/-- Signed division truncates toward zero and the remainder has the dividend's sign; by zero the quotient
is all ones and the remainder the dividend (D6); the overflow gives 0x80000000 and 0 (D7) (R162, R163). -/
def Obligations.SignedDivisionValues : Prop :=
  ValueR Instr.div (fun a b v => (b = 0#32 → v = 0xFFFFFFFF#32) ∧
    (Overflows a b → v = 0x80000000#32) ∧
    (b ≠ 0#32 → ¬ Overflows a b → v.toInt = a.toInt.tdiv b.toInt)) ∧
  ValueR Instr.rem (fun a b v => (b = 0#32 → v = a) ∧ (Overflows a b → v = 0#32) ∧
    (b ≠ 0#32 → ¬ Overflows a b → v.toInt = a.toInt - a.toInt.tdiv b.toInt * b.toInt ∧
      v.toInt.natAbs < b.toInt.natAbs ∧ (v.toInt ≠ 0 → (v.toInt < 0 ↔ a.toInt < 0))))

/-- Unsigned division and remainder; by zero the quotient is all ones and the remainder the dividend (D6)
(R164, R165). -/
def Obligations.UnsignedDivisionValues : Prop :=
  ValueR Instr.divu (fun a b v => (b = 0#32 → v = 0xFFFFFFFF#32) ∧
    (b ≠ 0#32 → v.toNat = a.toNat / b.toNat)) ∧
  ValueR Instr.remu (fun a b v => (b = 0#32 → v = a) ∧ (b ≠ 0#32 → v.toNat = a.toNat % b.toNat))

/-- Quotient and remainder of the same operands give the dividend back modulo 2^32, for every divisor,
zero and the overflow included (R163, R165; the corners are D6, D7). -/
def Obligations.QuotientTimesDivisorPlusRemainder : Prop :=
  ∀ (rd rs1 rs2 : RegIndex) (s : State), rd ≠ 0#5 →
    (∃ t u, exec (.div rd rs1 rs2) s = .next t ∧ exec (.rem rd rs1 rs2) s = .next u ∧
      t.readReg rd * s.readReg rs2 + u.readReg rd = s.readReg rs1) ∧
    (∃ t u, exec (.divu rd rs1 rs2) s = .next t ∧ exec (.remu rd rs1 rs2) s = .next u ∧
      t.readReg rd * s.readReg rs2 + u.readReg rd = s.readReg rs1)

/-- An instruction that is neither load nor store does the same whatever memory and MemAdmits are, and
leaves both alone (R90, R137, R150, R166: "reads no memory"). -/
def Obligations.NonMemoryInstructionsIgnoreMemory : Prop :=
  ∀ (i : Instr) (s t : State) (m : Memory) (a : AddressMap), i.load? = none → i.store? = none →
    exec i s = .next t → t.mem = s.mem ∧ t.admits = s.admits ∧
      exec i ((s.setMem m).setAdmits a) = .next ((t.setMem m).setAdmits a)

/-! ### Jumps and branches -/

/-- `jal` and `jalr` write the address of the next instruction to `rd`, jump to their targets unchecked
(D19), and change nothing else; `jalr` forces bit 0 to 0 and keeps the other bits (R170, R171, R172). -/
def Obligations.JumpResults : Prop :=
  (∀ rd imm s, ∃ t, exec (.jal rd imm) s = .next t ∧ WritesOnly s t rd (s.pc + 4#32) (s.pc + imm)) ∧
  ∀ rd rs1 imm s, ∃ t d, exec (.jalr rd rs1 imm) s = .next t ∧ WritesOnly s t rd (s.pc + 4#32) d ∧
    d[0] = false ∧ ∀ k, 0 < k → d.getLsbD k = (s.readReg rs1 + imm).getLsbD k

/-- A branch goes to `pc + imm` when its condition holds and to `pc + 4` when it does not, and changes
nothing else; stated where the spec says forcing bit 0 changes nothing, the pc and the immediate even; the
target is not checked (D19) (R180 to R184). -/
def Obligations.BranchResults : Prop :=
  ∀ (rs1 rs2 : RegIndex) (imm : Word) (s : State), s.pc[0] = false → imm[0] = false →
    (∃ t, exec (.beq rs1 rs2 imm) s = .next t ∧
      CommitsOnly s t (if s.readReg rs1 = s.readReg rs2 then s.pc + imm else s.pc + 4#32)) ∧
    (∃ t, exec (.bne rs1 rs2 imm) s = .next t ∧
      CommitsOnly s t (if s.readReg rs1 = s.readReg rs2 then s.pc + 4#32 else s.pc + imm)) ∧
    (∃ t, exec (.blt rs1 rs2 imm) s = .next t ∧
      CommitsOnly s t (if (s.readReg rs1).toInt < (s.readReg rs2).toInt then s.pc + imm else s.pc + 4#32)) ∧
    (∃ t, exec (.bge rs1 rs2 imm) s = .next t ∧
      CommitsOnly s t (if (s.readReg rs1).toInt < (s.readReg rs2).toInt then s.pc + 4#32 else s.pc + imm))

/-- Every branch completes in every state and with every immediate, odd ones included: where its condition
holds it commits `pc + imm` with bit 0 forced to 0, so an even pc, and where it does not, `pc + 4`; nothing
else changes (R180 to R184; the target is not checked, D19; equality has no signedness, D20). -/
def Obligations.BranchesForceBitZero : Prop :=
  ∀ (rs1 rs2 : RegIndex) (imm : Word) (s : State),
    Branches (.beq rs1 rs2 imm) s imm (s.readReg rs1 = s.readReg rs2) ∧
    Branches (.bne rs1 rs2 imm) s imm (s.readReg rs1 ≠ s.readReg rs2) ∧
    Branches (.blt rs1 rs2 imm) s imm ((s.readReg rs1).toInt < (s.readReg rs2).toInt) ∧
    Branches (.bge rs1 rs2 imm) s imm ((s.readReg rs2).toInt ≤ (s.readReg rs1).toInt)

/-- `beq` and `bne`, and `blt` and `bge`, of the same operands are complements: where the target is not
`pc + 4`, exactly one of each pair goes there (R184). -/
def Obligations.BranchPairsAreComplements : Prop :=
  ∀ (rs1 rs2 : RegIndex) (imm : Word) (s : State), (s.pc + imm) &&& 0xFFFFFFFE#32 ≠ s.pc + 4#32 →
    (∃ t u, exec (.blt rs1 rs2 imm) s = .next t ∧ exec (.bge rs1 rs2 imm) s = .next u ∧
      (t.pc = (s.pc + imm) &&& 0xFFFFFFFE#32 ↔ u.pc ≠ (s.pc + imm) &&& 0xFFFFFFFE#32)) ∧
    (∃ t u, exec (.beq rs1 rs2 imm) s = .next t ∧ exec (.bne rs1 rs2 imm) s = .next u ∧
      (t.pc = (s.pc + imm) &&& 0xFFFFFFFE#32 ↔ u.pc ≠ (s.pc + imm) &&& 0xFFFFFFFE#32))

/-- The next-pc multiplexer is R92's table, for every instruction that continues; a host trap and a decode
fault leave the sequential value (R94, which is D8; that they are ending outcomes is log 7); and for an even
pc and an even immediate the branches' mask changes nothing (R92). -/
def Obligations.NextPcMultiplexer : Prop :=
  (∀ (i : Instr) (s t : State), exec i s = .next t → t.pc = dnpcOf s i) ∧
  (∀ s : State, ∃ pc code t, exec .ebreak s = .fault (.hostTrap pc code t) ∧ t.pc = s.pc + 4#32) ∧
  (∀ s : State, ∃ pc t, exec .inv s = .fault (.decodeFault pc t) ∧ t.pc = s.pc + 4#32) ∧
  ∀ pc imm : Word, pc[0] = false → imm[0] = false → (pc + imm) &&& 0xFFFFFFFE#32 = pc + imm

/-! ### Memory -/

/-- A load that MemAdmits admits writes the bytes at `src1 + imm`, the lowest address least significant
(D3), full width, sign-extended or zero-extended, at any alignment (D4), and changes nothing else (R110 to
R114). -/
def Obligations.LoadResults : Prop :=
  ∀ (rd rs1 : RegIndex) (imm : Word) (s : State),
    (mapAdmits s.admits (effAddr s rs1 imm) .word .read = true →
      Computes (.lw rd rs1 imm) s rd
        (s.byteAt (effAddr s rs1 imm + 3#32) ++ s.byteAt (effAddr s rs1 imm + 2#32) ++
          s.byteAt (effAddr s rs1 imm + 1#32) ++ s.byteAt (effAddr s rs1 imm))) ∧
    (mapAdmits s.admits (effAddr s rs1 imm) .half .read = true →
      Computes (.lh rd rs1 imm) s rd
        ((s.byteAt (effAddr s rs1 imm + 1#32) ++ s.byteAt (effAddr s rs1 imm)).signExtend 32)) ∧
    (mapAdmits s.admits (effAddr s rs1 imm) .half .read = true →
      ∃ v, Computes (.lhu rd rs1 imm) s rd v ∧
        v.toNat = (s.byteAt (effAddr s rs1 imm + 1#32)).toNat * 256 +
          (s.byteAt (effAddr s rs1 imm)).toNat) ∧
    (mapAdmits s.admits (effAddr s rs1 imm) .byte .read = true →
      ∃ v, Computes (.lbu rd rs1 imm) s rd v ∧ v.toNat = (s.byteAt (effAddr s rs1 imm)).toNat)

/-- A load that MemAdmits refuses ends the step with `MemoryFault(pc, src1 + imm)` and changes nothing,
whatever `rd` is, x0 included (R114, R67, D12). -/
def Obligations.LoadFaults : Prop :=
  ∀ (i : Instr) (rs1 : RegIndex) (imm : Word) (n : Width) (s : State), i.load? = some (rs1, imm, n) →
    mapAdmits s.admits (effAddr s rs1 imm) n .read = false →
    exec i s = .fault (.memoryFault s.pc (s.readReg rs1 + imm) s)

/-- A store that MemAdmits admits writes the low bytes of `src2` at `src1 + imm`, little-endian (D3), at any
alignment (D4), and changes nothing else but the pc (R120 to R123). -/
def Obligations.StoreResults : Prop :=
  ∀ (rs1 rs2 : RegIndex) (imm : Word) (s : State),
    (mapAdmits s.admits (effAddr s rs1 imm) .word .write = true →
      ∃ t, exec (.sw rs1 rs2 imm) s = .next t ∧
        StoresOnly s t (effAddr s rs1 imm) .word (s.readReg rs2)) ∧
    (mapAdmits s.admits (effAddr s rs1 imm) .half .write = true →
      ∃ t, exec (.sh rs1 rs2 imm) s = .next t ∧
        StoresOnly s t (effAddr s rs1 imm) .half (s.readReg rs2)) ∧
    (mapAdmits s.admits (effAddr s rs1 imm) .byte .write = true →
      ∃ t, exec (.sb rs1 rs2 imm) s = .next t ∧
        StoresOnly s t (effAddr s rs1 imm) .byte (s.readReg rs2))

/-- A store that MemAdmits refuses ends the step with `MemoryFault(pc, src1 + imm)`; no byte is written
(R123, R33, D12). -/
def Obligations.StoreFaults : Prop :=
  ∀ (i : Instr) (rs1 : RegIndex) (imm : Word) (n : Width) (s : State), i.store? = some (rs1, imm, n) →
    mapAdmits s.admits (effAddr s rs1 imm) n .write = false →
    exec i s = .fault (.memoryFault s.pc (s.readReg rs1 + imm) s)

/-- After a word is stored, a load of the same word gives it back, and every narrower load inside it, the
halves at offsets 0 to 2 and the bytes at offsets 0 to 3, gives the bytes little-endian order implies (R34,
D3; R41; at any alignment, D4). -/
def Obligations.StoredWordReadsBackInPieces : Prop :=
  ∀ (rs1 rs2 rd base : RegIndex) (imm off : Word) (s t : State), s.mem.wf →
    exec (.sw rs1 rs2 imm) s = .next t →
    (effAddr t base off = effAddr s rs1 imm → mapAdmits t.admits (effAddr t base off) .word .read = true →
      Computes (.lw rd base off) t rd (s.readReg rs2)) ∧
    (∀ k, k < 3 → effAddr t base off = effAddr s rs1 imm + BitVec.ofNat 32 k →
      mapAdmits t.admits (effAddr t base off) .half .read = true →
      Computes (.lhu rd base off) t rd ((s.readReg rs2 >>> (8 * k)) &&& 0xFFFF#32) ∧
      Computes (.lh rd base off) t rd (((s.readReg rs2 >>> (8 * k)).setWidth 16).signExtend 32)) ∧
    (∀ k, k < 4 → effAddr t base off = effAddr s rs1 imm + BitVec.ofNat 32 k →
      mapAdmits t.admits (effAddr t base off) .byte .read = true →
      Computes (.lbu rd base off) t rd ((s.readReg rs2 >>> (8 * k)) &&& 0xFF#32))

/-- A word stored where the next step fetches is the instruction that step runs: no barrier is needed
(R44, D5). -/
def Obligations.StoredWordIsExecutedNext : Prop :=
  ∀ (rs1 rs2 : RegIndex) (imm : Word) (s t : State), s.mem.wf → exec (.sw rs1 rs2 imm) s = .next t →
    effAddr s rs1 imm = t.pc → mapAdmits t.admits t.pc .word .fetch = true →
    step t = exec (decodeWord (s.readReg rs2)) t

/-! ### The step and its results -/

/-- When the four bytes at the pc decode to an instruction and their fetch is admitted, the step is that
instruction's meaning (R95). -/
def Obligations.StepRunsDecodedInstruction : Prop :=
  ∀ (s : State) (i : Instr), mapAdmits s.admits s.pc .word .fetch = true →
    decode [s.byteAt s.pc, s.byteAt (s.pc + 1#32), s.byteAt (s.pc + 2#32), s.byteAt (s.pc + 3#32)] =
      .ok (i, []) →
    step s = exec i s

/-- A step whose fetch is refused ends with `MemoryFault(pc, pc)` and changes nothing; nothing is decoded
(R84, R206). -/
def Obligations.RefusedFetchFaults : Prop :=
  ∀ s : State, mapAdmits s.admits s.pc .word .fetch = false → step s = .fault (.memoryFault s.pc s.pc s)

/-- The host trap always ends the step, carrying its own pc and the whole value of x[TRAP_ARG_REG] (R190,
R203); registers and memory are unchanged and the pc left is `pc + 4` (D8). -/
def Obligations.HostTrapStops : Prop :=
  ∀ s : State, ∃ t, exec .ebreak s = .fault (.hostTrap s.pc (s.readReg s.trapArgReg) t) ∧
    CommitsOnly s t (s.pc + 4#32)

/-- The invalid instruction always ends the step with `DecodeFault(pc)` (R191); registers and memory are
unchanged and the pc left is `pc + 4` (D8). -/
def Obligations.InvalidInstructionStops : Prop :=
  ∀ s : State, ∃ t, exec .inv s = .fault (.decodeFault s.pc t) ∧ CommitsOnly s t (s.pc + 4#32)

/-- A decode fault carries the address the word was fetched from, and the word can be read there again,
since the step changed no memory (R204). -/
def Obligations.DecodeFaultCarriesFetchAddress : Prop :=
  ∀ (s : State) (w : Word), s.fetch = some w → (∀ e ∈ definedRows, w &&& e.mask ≠ e.expected) →
    ∃ t, step s = .fault (.decodeFault s.pc t) ∧ t.mem.read s.pc .word = w ∧ SameMemory s t

/-- The result of a step, whole (R200, R202, R206): a refused fetch; else the host trap on its one word; else
a decode fault on a word no row matches; else a memory fault on a refused data access; else the step
continues. The order of the cases is an inference the spec marks as its own (R206); the states left are D8
and D12; that the results other than Continue are ending outcomes is log 7. -/
def Obligations.StepResultClassified : Prop :=
  ∀ s : State,
    (s.fetch = none → step s = .fault (.memoryFault s.pc s.pc s)) ∧
    ∀ w, s.fetch = some w →
      (w = 0x00100073#32 → step s = .fault (.hostTrap s.pc (s.readReg s.trapArgReg)
        (s.setPc (s.pc + 4#32)))) ∧
      ((∀ e ∈ definedRows, w &&& e.mask ≠ e.expected) →
        step s = .fault (.decodeFault s.pc (s.setPc (s.pc + 4#32)))) ∧
      (∀ rs1 imm n, (decodeWord w).load? = some (rs1, imm, n) →
        mapAdmits s.admits (s.readReg rs1 + imm) n .read = false →
        step s = .fault (.memoryFault s.pc (s.readReg rs1 + imm) s)) ∧
      (∀ rs1 imm n, (decodeWord w).store? = some (rs1, imm, n) →
        mapAdmits s.admits (s.readReg rs1 + imm) n .write = false →
        step s = .fault (.memoryFault s.pc (s.readReg rs1 + imm) s)) ∧
      (w ≠ 0x00100073#32 → (∃ e ∈ definedRows, w &&& e.mask = e.expected) →
        (∀ rs1 imm n, (decodeWord w).load? = some (rs1, imm, n) →
          mapAdmits s.admits (s.readReg rs1 + imm) n .read = true) →
        (∀ rs1 imm n, (decodeWord w).store? = some (rs1, imm, n) →
          mapAdmits s.admits (s.readReg rs1 + imm) n .write = true) →
        ∃ t, step s = .next t)

/-- A step that does not continue leaves every register and every byte of memory as they were, carries its
own instruction's pc, and leaves the pc advanced by 4, or, after a memory fault, the whole state unchanged
(R202, R205, D8, D12). -/
def Obligations.ResultsArePrecise : Prop :=
  ∀ (s : State) (f : Fault), step s = .fault f →
    SameRegsBut s f.left [] ∧ f.left.mem = s.mem ∧
    ((∃ code t, f = .hostTrap s.pc code t ∧ t.pc = s.pc + 4#32) ∨
      (∃ t, f = .decodeFault s.pc t ∧ t.pc = s.pc + 4#32) ∨
      (∃ a, f = .memoryFault s.pc a s))

/-- The summary R90 and the write port R91 of every instruction: only its destination register changes,
only the bytes it stores to change, and a store, a branch, `ebreak` and `inv` write no register; x0 never
changes. -/
def Obligations.InstructionWritesOnlyItsDestination : Prop :=
  ∀ (i : Instr) (s t : State), exec i s = .next t →
    (∀ r, i.dest? ≠ some r → t.readReg r = s.readReg r) ∧
    (∀ a, (∀ rs1 imm n, i.store? = some (rs1, imm, n) → ¬ InAccess (effAddr s rs1 imm) n a) →
      t.byteAt a = s.byteAt a) ∧
    SameParameters s t

/-- The interface's placing of a word makes the very next step run it, and the interface's decoding of it
is the same instruction; the model's own (log 9). -/
def Obligations.PlacedWordRuns : Prop :=
  ∀ (s : State) (nbits w : Nat), s.mem.wf →
    decodeTableWord nbits w = some (decodeWord (tableWord nbits w)) ∧
    step (s.withFetchWord nbits w) = exec (decodeWord (tableWord nbits w)) (s.withFetchWord nbits w) ∧
    (s.withFetchWord nbits w).regs = s.regs ∧ (s.withFetchWord nbits w).pc = s.pc ∧
    ∀ a, ¬ InAccess s.pc .word a → (s.withFetchWord nbits w).byteAt a = s.byteAt a
end

