-- ==== Sys2Proof/Laws/Encoding.lean ====
section
/-!
SUPPORT. The bits each encoding format fixes (30_encoding.md R52): an encoded word under the mask of its
rows is its opcode and function fields, whatever its operands are.
-/

namespace Sys2Proof

/-- R format fixes funct7, funct3 and the opcode. -/
theorem encR_mask (f7 : BitVec 7) (f3 : BitVec 3) (op : BitVec 7) (rd rs1 rs2 : RegIndex) :
    encR f7 f3 op rd rs1 rs2 &&& 0xfe00707f#32 = (f7.setWidth 32 <<< 25) ||| (f3.setWidth 32 <<< 12) ||| op.setWidth 32 := by
  apply BitVec.eq_of_getLsbD_eq
  intro i hi
  simp only [encR, BitVec.getLsbD_and, BitVec.getLsbD_append, BitVec.getLsbD_or,
    BitVec.getLsbD_shiftLeft, BitVec.getLsbD_setWidth]
  interval_cases i <;> simp

/-- The shift form of I fixes bits 31:25, funct3 and the opcode. -/
theorem encShift_mask (f7 : BitVec 7) (f3 : BitVec 3) (op : BitVec 7) (rd rs1 : RegIndex) (imm : Word) :
    encShift f7 f3 op rd rs1 imm &&& 0xfe00707f#32 = (f7.setWidth 32 <<< 25) ||| (f3.setWidth 32 <<< 12) ||| op.setWidth 32 := by
  apply BitVec.eq_of_getLsbD_eq
  intro i hi
  simp only [encShift, BitVec.getLsbD_and, BitVec.getLsbD_append, BitVec.getLsbD_or,
    BitVec.getLsbD_shiftLeft, BitVec.getLsbD_setWidth]
  interval_cases i <;> simp

/-- I format fixes funct3 and the opcode. -/
theorem encI_mask (f3 : BitVec 3) (op : BitVec 7) (rd rs1 : RegIndex) (imm : Word) :
    encI f3 op rd rs1 imm &&& 0x0000707f#32 = (f3.setWidth 32 <<< 12) ||| op.setWidth 32 := by
  apply BitVec.eq_of_getLsbD_eq
  intro i hi
  simp only [encI, BitVec.getLsbD_and, BitVec.getLsbD_append, BitVec.getLsbD_or,
    BitVec.getLsbD_shiftLeft, BitVec.getLsbD_setWidth]
  interval_cases i <;> simp

/-- S format fixes funct3 and the opcode. -/
theorem encS_mask (f3 : BitVec 3) (op : BitVec 7) (rs1 rs2 : RegIndex) (imm : Word) :
    encS f3 op rs1 rs2 imm &&& 0x0000707f#32 = (f3.setWidth 32 <<< 12) ||| op.setWidth 32 := by
  apply BitVec.eq_of_getLsbD_eq
  intro i hi
  simp only [encS, BitVec.getLsbD_and, BitVec.getLsbD_append, BitVec.getLsbD_or,
    BitVec.getLsbD_shiftLeft, BitVec.getLsbD_setWidth]
  interval_cases i <;> simp

/-- B format fixes funct3 and the opcode. -/
theorem encB_mask (f3 : BitVec 3) (op : BitVec 7) (rs1 rs2 : RegIndex) (imm : Word) :
    encB f3 op rs1 rs2 imm &&& 0x0000707f#32 = (f3.setWidth 32 <<< 12) ||| op.setWidth 32 := by
  apply BitVec.eq_of_getLsbD_eq
  intro i hi
  simp only [encB, BitVec.getLsbD_and, BitVec.getLsbD_append, BitVec.getLsbD_or,
    BitVec.getLsbD_shiftLeft, BitVec.getLsbD_setWidth]
  interval_cases i <;> simp

/-- U format fixes the opcode. -/
theorem encU_mask (op : BitVec 7) (rd : RegIndex) (imm : Word) :
    encU op rd imm &&& 0x0000007f#32 = op.setWidth 32 := by
  apply BitVec.eq_of_getLsbD_eq
  intro i hi
  simp only [encU, BitVec.getLsbD_and, BitVec.getLsbD_append, BitVec.getLsbD_setWidth]
  interval_cases i <;> simp

/-- J format fixes the opcode. -/
theorem encJ_mask (op : BitVec 7) (rd : RegIndex) (imm : Word) :
    encJ op rd imm &&& 0x0000007f#32 = op.setWidth 32 := by
  apply BitVec.eq_of_getLsbD_eq
  intro i hi
  simp only [encJ, BitVec.getLsbD_and, BitVec.getLsbD_append, BitVec.getLsbD_setWidth]
  interval_cases i <;> simp

end Sys2Proof
end

