-- ==== Sys2Proof/Laws/State.lean ====
section
/-!
SUPPORT. One lemma per field of State per update, so that no proof unfolds a record update.
-/

namespace Sys2Proof.Machine

@[simp] theorem setPc_regs (s : State) (v : Word) : (s.setPc v).regs = s.regs := rfl

@[simp] theorem setPc_pc (s : State) (v : Word) : (s.setPc v).pc = v := rfl

@[simp] theorem setPc_mem (s : State) (v : Word) : (s.setPc v).mem = s.mem := rfl

@[simp] theorem setPc_admits (s : State) (v : Word) : (s.setPc v).admits = s.admits := rfl

@[simp] theorem setPc_trapArgReg (s : State) (v : Word) : (s.setPc v).trapArgReg = s.trapArgReg := rfl

@[simp] theorem readReg_setPc (s : State) (v : Word) (i : RegIndex) :
    (s.setPc v).readReg i = s.readReg i := rfl

@[simp] theorem setMem_regs (s : State) (v : Memory) : (s.setMem v).regs = s.regs := rfl

@[simp] theorem setMem_pc (s : State) (v : Memory) : (s.setMem v).pc = s.pc := rfl

@[simp] theorem setMem_mem (s : State) (v : Memory) : (s.setMem v).mem = v := rfl

@[simp] theorem setMem_admits (s : State) (v : Memory) : (s.setMem v).admits = s.admits := rfl

@[simp] theorem setMem_trapArgReg (s : State) (v : Memory) : (s.setMem v).trapArgReg = s.trapArgReg := rfl

@[simp] theorem readReg_setMem (s : State) (v : Memory) (i : RegIndex) :
    (s.setMem v).readReg i = s.readReg i := rfl

@[simp] theorem snpc_setMem (s : State) (v : Memory) : (s.setMem v).snpc = s.snpc := rfl

@[simp] theorem setAdmits_regs (s : State) (v : AddressMap) : (s.setAdmits v).regs = s.regs := rfl

@[simp] theorem setAdmits_pc (s : State) (v : AddressMap) : (s.setAdmits v).pc = s.pc := rfl

@[simp] theorem setAdmits_mem (s : State) (v : AddressMap) : (s.setAdmits v).mem = s.mem := rfl

@[simp] theorem setAdmits_admits (s : State) (v : AddressMap) : (s.setAdmits v).admits = v := rfl

@[simp] theorem setAdmits_trapArgReg (s : State) (v : AddressMap) : (s.setAdmits v).trapArgReg = s.trapArgReg := rfl

@[simp] theorem readReg_setAdmits (s : State) (v : AddressMap) (i : RegIndex) :
    (s.setAdmits v).readReg i = s.readReg i := rfl

@[simp] theorem snpc_setAdmits (s : State) (v : AddressMap) : (s.setAdmits v).snpc = s.snpc := rfl

@[simp] theorem writeReg_pc (s : State) (i : RegIndex) (v : Word) :
    (s.writeReg i v).pc = s.pc := by
  unfold State.writeReg; split <;> rfl

@[simp] theorem writeReg_mem (s : State) (i : RegIndex) (v : Word) :
    (s.writeReg i v).mem = s.mem := by
  unfold State.writeReg; split <;> rfl

@[simp] theorem writeReg_admits (s : State) (i : RegIndex) (v : Word) :
    (s.writeReg i v).admits = s.admits := by
  unfold State.writeReg; split <;> rfl

@[simp] theorem writeReg_trapArgReg (s : State) (i : RegIndex) (v : Word) :
    (s.writeReg i v).trapArgReg = s.trapArgReg := by
  unfold State.writeReg; split <;> rfl

@[simp] theorem writeReg_snpc (s : State) (i : RegIndex) (v : Word) : (s.writeReg i v).snpc = s.snpc := by
  simp [State.snpc]

@[simp] theorem readReg_placeWord (s : State) (w : Word) (i : RegIndex) :
    (s.placeWord w).readReg i = s.readReg i := rfl

@[simp] theorem placeWord_regs (s : State) (w : Word) :
    (s.placeWord w).regs = s.regs := rfl

@[simp] theorem placeWord_pc (s : State) (w : Word) :
    (s.placeWord w).pc = s.pc := rfl

@[simp] theorem placeWord_mem (s : State) (w : Word) :
    (s.placeWord w).mem = s.mem.write s.pc .word w := rfl

@[simp] theorem placeWord_admits (s : State) (w : Word) :
    (s.placeWord w).admits = admitFetch s.admits s.pc := rfl

@[simp] theorem placeWord_trapArgReg (s : State) (w : Word) :
    (s.placeWord w).trapArgReg = s.trapArgReg := rfl

/-- Two states with the same fields are the same state. -/
theorem state_ext {s t : State} (hr : s.regs = t.regs) (hp : s.pc = t.pc) (hm : s.mem = t.mem)
    (ha : s.admits = t.admits) (hg : s.trapArgReg = t.trapArgReg) : s = t := by
  cases s; cases t; simp_all

end Sys2Proof.Machine
end

