-- ==== Sys2Proof/Laws/Memory.lean ====
section
/-!
SUPPORT. Memory: every operation keeps the canonical form; a byte stored is the byte read back; a store
leaves every other byte alone; the bytes of an access are the ones its width says (20_memory.md R31 to
R34, R38).
-/

namespace Sys2Proof.Machine

/-! ### One byte -/

@[simp] theorem get_nil (a : Nat) : Memory.get [] a = Config.unlistedByte := rfl

/-- A byte other than the one set is unchanged, in any memory. -/
theorem get_set_other (m : Memory) {a b : Nat} (v : Byte) (h : b ≠ a) :
    (m.set a v).get b = m.get b := by
  induction m with
  | nil => simp only [Memory.set]; split <;> simp [Memory.get, h]
  | cons c rest ih =>
    obtain ⟨k, u⟩ := c
    simp only [Memory.set]
    split
    · split <;> simp [Memory.get, h]
    · split
      · next hk => subst hk; split <;> simp [Memory.get, h]
      · simp only [Memory.get, ih]

/-- Below every listed address a canonical memory reads as unlisted. -/
theorem get_of_lt {m : Memory} {a : Nat} (h : ∀ c ∈ m, a < c.1) : m.get a = Config.unlistedByte := by
  induction m with
  | nil => rfl
  | cons c rest ih =>
    obtain ⟨k, u⟩ := c
    have hk : a < k := h (k, u) (by simp)
    simp only [Memory.get, if_neg (Nat.ne_of_lt hk)]
    exact ih (fun c hc => h c (by simp [hc]))

/-- The byte set is the byte read back, in a canonical memory. -/
theorem get_set_same {m : Memory} (hm : m.wf) (a : Nat) (v : Byte) : (m.set a v).get a = v := by
  induction m with
  | nil => simp only [Memory.set]; split <;> simp_all [Memory.get]
  | cons c rest ih =>
    obtain ⟨k, u⟩ := c
    obtain ⟨hp, hb⟩ := hm
    obtain ⟨hlt, hrest⟩ := List.pairwise_cons.mp hp
    have hwf : Memory.wf rest := ⟨hrest, fun c hc => hb c (by simp [hc])⟩
    simp only [Memory.set]
    split
    · next h =>
      split
      · next hv =>
        rw [get_of_lt, hv]
        intro c hc
        rcases List.mem_cons.mp hc with rfl | hc
        · exact h
        · exact Nat.lt_trans h (hlt c hc)
      · simp [Memory.get]
    · split
      · next h =>
        subst h
        split
        · next hv => rw [get_of_lt hlt, hv]
        · simp [Memory.get]
      · next h => simp only [Memory.get, if_neg h, ih hwf]

/-- Every address listed after a set was listed before or is the one set. -/
theorem mem_set {m : Memory} {a : Nat} {v : Byte} {c : Host.Cell} (h : c ∈ m.set a v) :
    c ∈ m ∨ (c = (a, v) ∧ v ≠ Config.unlistedByte) := by
  induction m with
  | nil =>
    simp only [Memory.set] at h
    split at h <;> simp_all
  | cons d rest ih =>
    obtain ⟨k, u⟩ := d
    simp only [Memory.set] at h
    split at h
    · split at h
      · exact .inl h
      · next hv =>
        rcases List.mem_cons.mp h with rfl | h
        · exact .inr ⟨rfl, hv⟩
        · exact .inl h
    · split at h
      · split at h
        · exact .inl (List.mem_cons_of_mem _ h)
        · next hv =>
          rcases List.mem_cons.mp h with rfl | h
          · exact .inr ⟨rfl, hv⟩
          · exact .inl (List.mem_cons_of_mem _ h)
      · rcases List.mem_cons.mp h with rfl | h
        · simp
        · rcases ih h with h | h
          · simp [h]
          · exact .inr h

/-- Setting a byte inside the address space keeps the canonical form. -/
theorem set_wf {m : Memory} (hm : m.wf) {a : Nat} (ha : a < Config.addressSpace) (v : Byte) :
    (m.set a v).wf := by
  refine ⟨?_, fun c hc => ?_⟩
  · induction m with
    | nil => simp only [Memory.set]; split <;> simp
    | cons d rest ih =>
      obtain ⟨k, u⟩ := d
      obtain ⟨hp, hb⟩ := hm
      obtain ⟨hlt, hrest⟩ := List.pairwise_cons.mp hp
      have hwf : Memory.wf rest := ⟨hrest, fun c hc => hb c (by simp [hc])⟩
      simp only [Memory.set]
      split
      · next h =>
        split
        · exact hp
        · refine List.pairwise_cons.mpr ⟨fun c hc => ?_, hp⟩
          rcases List.mem_cons.mp hc with rfl | hc
          · exact h
          · exact Nat.lt_trans h (hlt c hc)
      · split
        · next h =>
          subst h
          split
          · exact hrest
          · exact List.pairwise_cons.mpr ⟨hlt, hrest⟩
        · next h₁ h₂ =>
          refine List.pairwise_cons.mpr ⟨fun c hc => ?_, ih hwf⟩
          rcases mem_set hc with hc | ⟨rfl, -⟩
          · exact hlt c hc
          · show k < a
            omega
  · rcases mem_set hc with hc | ⟨rfl, hv⟩
    · exact hm.2 c hc
    · exact ⟨ha, hv⟩

/-! ### Accesses -/

theorem byteAddr_lt (a : Word) (i : Nat) : byteAddr a i < Config.addressSpace :=
  (a + BitVec.ofNat 32 i).isLt

/-- The bytes of one access lie at different addresses. -/
theorem byteAddr_inj {a : Word} {i j : Nat} (hi : i < Config.addressSpace) (hj : j < Config.addressSpace)
    (h : byteAddr a i = byteAddr a j) : i = j := by
  have h' := congrArg BitVec.toNat (BitVec.add_right_inj a |>.mp (BitVec.eq_of_toNat_eq h))
  rwa [BitVec.toNat_ofNat, BitVec.toNat_ofNat, Nat.mod_eq_of_lt hi, Nat.mod_eq_of_lt hj] at h'

theorem writeBytes_wf {m : Memory} (hm : m.wf) (a v : Word) (n : Nat) : (m.writeBytes a v n).wf := by
  induction n with
  | zero => exact hm
  | succ n ih => exact set_wf ih (byteAddr_lt a n) _

/-- A store keeps the canonical form. -/
theorem write_wf {m : Memory} (hm : m.wf) (a : Word) (n : Width) (v : Word) : (m.write a n v).wf :=
  writeBytes_wf hm a v n.bytes

theorem get_writeBytes_other (m : Memory) (a v : Word) (n : Nat) {b : Nat}
    (h : ∀ i, i < n → b ≠ byteAddr a i) : (m.writeBytes a v n).get b = m.get b := by
  induction n with
  | zero => rfl
  | succ n ih =>
    simp only [Memory.writeBytes]
    rw [get_set_other _ _ (h n (by omega)), ih (fun i hi => h i (by omega))]

/-- A store leaves every byte outside it alone, in any memory (R33). -/
theorem get_write_other (m : Memory) (a : Word) (n : Width) (v : Word) {b : Nat}
    (h : ∀ i, i < n.bytes → b ≠ byteAddr a i) : (m.write a n v).get b = m.get b :=
  get_writeBytes_other m a v n.bytes h

theorem get_writeBytes_same {m : Memory} (hm : m.wf) (a v : Word) {n i : Nat}
    (hn : n ≤ Config.addressSpace) (hi : i < n) :
    (m.writeBytes a v n).get (byteAddr a i) = v.extractLsb' (8 * i) 8 := by
  induction n with
  | zero => omega
  | succ n ih =>
    simp only [Memory.writeBytes]
    by_cases h : i = n
    · subst h
      exact get_set_same (writeBytes_wf hm a v i) _ _
    · rw [get_set_other, ih (by omega) (by omega)]
      exact fun he => h (byteAddr_inj (by omega) (by omega) he)

/-- Byte `i` of a store is bits 8i+7:8i of the value (R33, R34). -/
theorem get_write_same {m : Memory} (hm : m.wf) (a : Word) (n : Width) (v : Word) {i : Nat}
    (hi : i < n.bytes) : (m.write a n v).get (byteAddr a i) = v.extractLsb' (8 * i) 8 :=
  get_writeBytes_same hm a v (by cases n <;> decide) hi

end Sys2Proof.Machine
end

