-- ==== Sys2Proof/Laws/Registers.lean ====
section
/-!
SUPPORT. The register ports (10_state.md R11, R12): what a read gives after a write.
-/

namespace Sys2Proof.Machine

@[simp] theorem readReg_zero (s : State) : s.readReg 0#5 = 0#32 := rfl

@[simp] theorem writeReg_zero (s : State) (v : Word) : s.writeReg 0#5 v = s := rfl

/-- Everything a write does to what registers read as. -/
theorem readReg_writeReg (s : State) (i j : RegIndex) (v : Word) :
    (s.writeReg i v).readReg j = if j = i ∧ i ≠ 0#5 then v else s.readReg j := by
  unfold State.readReg State.writeReg
  by_cases hi : i = 0#5
  · subst hi; simp
  · by_cases hj : j = 0#5
    · subst hj; simp [Ne.symm hi]
    · have hi' : i.toNat ≠ 0 := fun h => hi (BitVec.eq_of_toNat_eq (by simpa using h))
      have hj' : j.toNat ≠ 0 := fun h => hj (BitVec.eq_of_toNat_eq (by simpa using h))
      simp only [hi, hj, if_false, Vector.getElem_set]
      by_cases hij : j = i
      · simp [hij, hi]
      · have : i.toNat - 1 ≠ j.toNat - 1 := fun h =>
          hij (BitVec.eq_of_toNat_eq (by omega))
        simp [hij, this]

theorem readReg_writeReg_same (s : State) {i : RegIndex} (v : Word) (h : i ≠ 0#5) :
    (s.writeReg i v).readReg i = v := by
  simp [readReg_writeReg, h]

theorem readReg_writeReg_other (s : State) {i j : RegIndex} (v : Word) (h : j ≠ i) :
    (s.writeReg i v).readReg j = s.readReg j := by
  simp [readReg_writeReg, h]

end Sys2Proof.Machine
end

