-- ==== Sys2Proof/Laws/Ops.lean ====
section
/-!
SUPPORT. One lemma for each shared operation that says once everything it can answer; provers cite these
instead of unfolding the operation.
-/

namespace Sys2Proof.Machine

/-! ### What an operation answers -/

@[simp] theorem commit_eq (d : Word) (s : State) : commit d s = .next (s.setPc d) := rfl

@[simp] theorem retire_eq (rd : RegIndex) (v : Word) (s : State) :
    retire rd v s = .next ((s.writeReg rd v).setPc s.snpc) := rfl

@[simp] theorem retireTo_eq (rd : RegIndex) (v d : Word) (s : State) :
    retireTo rd v d s = .next ((s.writeReg rd v).setPc d) := rfl

@[simp] theorem raise_hostTrap (code : Word) (s : State) :
    raise (.hostTrap code) s = .fault (.hostTrap s.pc code (s.setPc s.snpc)) := rfl

@[simp] theorem raise_decodeFault (s : State) :
    raise .decodeFault s = .fault (.decodeFault s.pc (s.setPc s.snpc)) := rfl

@[simp] theorem raise_memoryFault (a : Word) (s : State) :
    raise (.memoryFault a) s = .fault (.memoryFault s.pc a s) := rfl

/-- Raising a result never continues. -/
theorem raise_ne_next (c : Cause) (s t : State) : raise c s ≠ .next t := by
  cases c <;> simp

@[simp] theorem nextPc_true (t n : Word) : nextPc true t n = t := rfl

@[simp] theorem nextPc_false (t n : Word) : nextPc false t n = n := rfl

/-! ### The memory collaborator -/

theorem fetch_admitted {s : State} (h : mapAdmits s.admits s.pc .word .fetch = true) :
    s.fetch = some (s.mem.read s.pc .word) := by
  simp [State.fetch, h]

theorem fetch_refused {s : State} (h : mapAdmits s.admits s.pc .word .fetch = false) : s.fetch = none := by
  simp [State.fetch, h]

theorem memRead_admitted {s : State} {a : Word} {n : Width} (h : mapAdmits s.admits a n .read = true) :
    s.memRead a n = some (s.mem.read a n) := by
  simp [State.memRead, h]

theorem memRead_refused {s : State} {a : Word} {n : Width} (h : mapAdmits s.admits a n .read = false) :
    s.memRead a n = none := by
  simp [State.memRead, h]

theorem memWrite_admitted {s : State} {a v : Word} {n : Width} (h : mapAdmits s.admits a n .write = true) :
    s.memWrite a n v = some (s.setMem (s.mem.write a n v)) := by
  simp [State.memWrite, h]

theorem memWrite_refused {s : State} {a v : Word} {n : Width} (h : mapAdmits s.admits a n .write = false) :
    s.memWrite a n v = none := by
  simp [State.memWrite, h]

/-! ### Loads and stores -/

/-- Everything a load can do: write the extended value, or fault with nothing changed. -/
theorem loadInto_cases (rd : RegIndex) (a : Word) (n : Width) (ext : Word → Word) (s : State) :
    (mapAdmits s.admits a n .read = true ∧
      loadInto rd a n ext s = .next ((s.writeReg rd (ext (s.mem.read a n))).setPc s.snpc)) ∨
    (mapAdmits s.admits a n .read = false ∧ loadInto rd a n ext s = .fault (.memoryFault s.pc a s)) := by
  cases h : mapAdmits s.admits a n .read
  · exact .inr ⟨rfl, by simp [loadInto, memRead_refused h]⟩
  · exact .inl ⟨rfl, by simp [loadInto, memRead_admitted h]⟩

/-- Everything a store can do: store the bytes, or fault with nothing changed. -/
theorem storeTo_cases (a : Word) (n : Width) (v : Word) (s : State) :
    (mapAdmits s.admits a n .write = true ∧
      storeTo a n v s = .next ((s.setMem (s.mem.write a n v)).setPc s.snpc)) ∨
    (mapAdmits s.admits a n .write = false ∧ storeTo a n v s = .fault (.memoryFault s.pc a s)) := by
  cases h : mapAdmits s.admits a n .write
  · exact .inr ⟨rfl, by simp [storeTo, memWrite_refused h]⟩
  · exact .inl ⟨rfl, by simp [storeTo, memWrite_admitted h]⟩

/-! ### Operands -/

/-- Forcing bit 0 leaves an even value, and leaves an even value alone (R92). -/
theorem clearBit0_even (t : Word) : (clearBit0 t)[0] = false := by
  simp [clearBit0]

theorem clearMask_bit : ∀ i : Fin 32, i.val ≠ 0 → (0xFFFFFFFE#32)[i.val] = true := by decide

theorem clearBit0_of_even {t : Word} (h : t[0] = false) : clearBit0 t = t := by
  apply BitVec.eq_of_getElem_eq
  intro i hi
  rw [clearBit0, BitVec.getElem_and]
  by_cases h0 : i = 0
  · subst h0; simp [h]
  · rw [clearMask_bit ⟨i, hi⟩ h0, Bool.and_true]

theorem shiftAmount_lt (v : Word) : shiftAmount v < 32 :=
  (v.extractLsb' 0 5).isLt

end Sys2Proof.Machine
end

