-- ==== Sys2Proof/Laws/PerInstr.lean ====
section
/-!
SUPPORT. Facts made per instruction. MatchesOwnRow: an encoded instruction matches the row of
spec/opcode_table.json it belongs to, whatever its operands are.
-/

namespace Sys2Proof.Laws.MatchesOwnRow

/-- The row of a mnemonic. -/
def rowOf (m : Mnemonic) : PatternEntry :=
  (table.find? (fun e => e.mnemonic = m)).getD catchAll

/-- The encoding of an instruction has its own row's fixed bits (R52, R59, R60). -/
def Statement (i : Instr) : Prop :=
  encodeWord i &&& (rowOf i.mnemonic).mask = (rowOf i.mnemonic).expected

theorem lui (rd : RegIndex) (imm : Word) : Statement (.lui rd imm) :=
  (encU_mask _ _ _).trans (show _ = (rowOf .lui).expected by decide)

theorem auipc (rd : RegIndex) (imm : Word) : Statement (.auipc rd imm) :=
  (encU_mask _ _ _).trans (show _ = (rowOf .auipc).expected by decide)

theorem lw (rd rs1 : RegIndex) (imm : Word) : Statement (.lw rd rs1 imm) :=
  (encI_mask _ _ _ _ _).trans (show _ = (rowOf .lw).expected by decide)

theorem lh (rd rs1 : RegIndex) (imm : Word) : Statement (.lh rd rs1 imm) :=
  (encI_mask _ _ _ _ _).trans (show _ = (rowOf .lh).expected by decide)

theorem lhu (rd rs1 : RegIndex) (imm : Word) : Statement (.lhu rd rs1 imm) :=
  (encI_mask _ _ _ _ _).trans (show _ = (rowOf .lhu).expected by decide)

theorem lbu (rd rs1 : RegIndex) (imm : Word) : Statement (.lbu rd rs1 imm) :=
  (encI_mask _ _ _ _ _).trans (show _ = (rowOf .lbu).expected by decide)

theorem sw (rs1 rs2 : RegIndex) (imm : Word) : Statement (.sw rs1 rs2 imm) :=
  (encS_mask _ _ _ _ _).trans (show _ = (rowOf .sw).expected by decide)

theorem sh (rs1 rs2 : RegIndex) (imm : Word) : Statement (.sh rs1 rs2 imm) :=
  (encS_mask _ _ _ _ _).trans (show _ = (rowOf .sh).expected by decide)

theorem sb (rs1 rs2 : RegIndex) (imm : Word) : Statement (.sb rs1 rs2 imm) :=
  (encS_mask _ _ _ _ _).trans (show _ = (rowOf .sb).expected by decide)

theorem addi (rd rs1 : RegIndex) (imm : Word) : Statement (.addi rd rs1 imm) :=
  (encI_mask _ _ _ _ _).trans (show _ = (rowOf .addi).expected by decide)

theorem andi (rd rs1 : RegIndex) (imm : Word) : Statement (.andi rd rs1 imm) :=
  (encI_mask _ _ _ _ _).trans (show _ = (rowOf .andi).expected by decide)

theorem xori (rd rs1 : RegIndex) (imm : Word) : Statement (.xori rd rs1 imm) :=
  (encI_mask _ _ _ _ _).trans (show _ = (rowOf .xori).expected by decide)

theorem slli (rd rs1 : RegIndex) (imm : Word) : Statement (.slli rd rs1 imm) :=
  (encShift_mask _ _ _ _ _ _).trans (show _ = (rowOf .slli).expected by decide)

theorem srli (rd rs1 : RegIndex) (imm : Word) : Statement (.srli rd rs1 imm) :=
  (encShift_mask _ _ _ _ _ _).trans (show _ = (rowOf .srli).expected by decide)

theorem srai (rd rs1 : RegIndex) (imm : Word) : Statement (.srai rd rs1 imm) :=
  (encShift_mask _ _ _ _ _ _).trans (show _ = (rowOf .srai).expected by decide)

theorem sltiu (rd rs1 : RegIndex) (imm : Word) : Statement (.sltiu rd rs1 imm) :=
  (encI_mask _ _ _ _ _).trans (show _ = (rowOf .sltiu).expected by decide)

theorem add (rd rs1 rs2 : RegIndex) : Statement (.add rd rs1 rs2) :=
  (encR_mask _ _ _ _ _ _).trans (show _ = (rowOf .add).expected by decide)

theorem sub (rd rs1 rs2 : RegIndex) : Statement (.sub rd rs1 rs2) :=
  (encR_mask _ _ _ _ _ _).trans (show _ = (rowOf .sub).expected by decide)

theorem and (rd rs1 rs2 : RegIndex) : Statement (.and rd rs1 rs2) :=
  (encR_mask _ _ _ _ _ _).trans (show _ = (rowOf .and).expected by decide)

theorem or (rd rs1 rs2 : RegIndex) : Statement (.or rd rs1 rs2) :=
  (encR_mask _ _ _ _ _ _).trans (show _ = (rowOf .or).expected by decide)

theorem xor (rd rs1 rs2 : RegIndex) : Statement (.xor rd rs1 rs2) :=
  (encR_mask _ _ _ _ _ _).trans (show _ = (rowOf .xor).expected by decide)

theorem sll (rd rs1 rs2 : RegIndex) : Statement (.sll rd rs1 rs2) :=
  (encR_mask _ _ _ _ _ _).trans (show _ = (rowOf .sll).expected by decide)

theorem srl (rd rs1 rs2 : RegIndex) : Statement (.srl rd rs1 rs2) :=
  (encR_mask _ _ _ _ _ _).trans (show _ = (rowOf .srl).expected by decide)

theorem sra (rd rs1 rs2 : RegIndex) : Statement (.sra rd rs1 rs2) :=
  (encR_mask _ _ _ _ _ _).trans (show _ = (rowOf .sra).expected by decide)

theorem slt (rd rs1 rs2 : RegIndex) : Statement (.slt rd rs1 rs2) :=
  (encR_mask _ _ _ _ _ _).trans (show _ = (rowOf .slt).expected by decide)

theorem sltu (rd rs1 rs2 : RegIndex) : Statement (.sltu rd rs1 rs2) :=
  (encR_mask _ _ _ _ _ _).trans (show _ = (rowOf .sltu).expected by decide)

theorem mul (rd rs1 rs2 : RegIndex) : Statement (.mul rd rs1 rs2) :=
  (encR_mask _ _ _ _ _ _).trans (show _ = (rowOf .mul).expected by decide)

theorem mulh (rd rs1 rs2 : RegIndex) : Statement (.mulh rd rs1 rs2) :=
  (encR_mask _ _ _ _ _ _).trans (show _ = (rowOf .mulh).expected by decide)

theorem div (rd rs1 rs2 : RegIndex) : Statement (.div rd rs1 rs2) :=
  (encR_mask _ _ _ _ _ _).trans (show _ = (rowOf .div).expected by decide)

theorem rem (rd rs1 rs2 : RegIndex) : Statement (.rem rd rs1 rs2) :=
  (encR_mask _ _ _ _ _ _).trans (show _ = (rowOf .rem).expected by decide)

theorem divu (rd rs1 rs2 : RegIndex) : Statement (.divu rd rs1 rs2) :=
  (encR_mask _ _ _ _ _ _).trans (show _ = (rowOf .divu).expected by decide)

theorem remu (rd rs1 rs2 : RegIndex) : Statement (.remu rd rs1 rs2) :=
  (encR_mask _ _ _ _ _ _).trans (show _ = (rowOf .remu).expected by decide)

theorem jal (rd : RegIndex) (imm : Word) : Statement (.jal rd imm) :=
  (encJ_mask _ _ _).trans (show _ = (rowOf .jal).expected by decide)

theorem jalr (rd rs1 : RegIndex) (imm : Word) : Statement (.jalr rd rs1 imm) :=
  (encI_mask _ _ _ _ _).trans (show _ = (rowOf .jalr).expected by decide)

theorem beq (rs1 rs2 : RegIndex) (imm : Word) : Statement (.beq rs1 rs2 imm) :=
  (encB_mask _ _ _ _ _).trans (show _ = (rowOf .beq).expected by decide)

theorem bne (rs1 rs2 : RegIndex) (imm : Word) : Statement (.bne rs1 rs2 imm) :=
  (encB_mask _ _ _ _ _).trans (show _ = (rowOf .bne).expected by decide)

theorem blt (rs1 rs2 : RegIndex) (imm : Word) : Statement (.blt rs1 rs2 imm) :=
  (encB_mask _ _ _ _ _).trans (show _ = (rowOf .blt).expected by decide)

theorem bge (rs1 rs2 : RegIndex) (imm : Word) : Statement (.bge rs1 rs2 imm) :=
  (encB_mask _ _ _ _ _).trans (show _ = (rowOf .bge).expected by decide)

theorem ebreak : Statement .ebreak := by
  unfold Statement
  decide

theorem inv : Statement .inv := by
  unfold Statement
  decide

end Sys2Proof.Laws.MatchesOwnRow
end

