-- ==== Sys2Proof/Laws/Step.lean ====
section
/-!
SUPPORT. What an instruction and a step can do, said once: provers cite these instead of unfolding exec.
-/

namespace Sys2Proof.Machine

/-- A step whose fetch is admitted runs the decoded word (R95). -/
theorem step_of_fetch {s : State} {w : Word} (h : s.fetch = some w) : step s = exec (decodeWord w) s := by
  simp [step, h]

/-- A step whose fetch is refused ends with a memory fault at the pc (R84). -/
theorem step_of_refused {s : State} (h : s.fetch = none) : step s = .fault (.memoryFault s.pc s.pc s) := by
  simp [step, h]

/-- Everything an instruction can do: write its destination and commit a pc; store and commit `pc + 4`;
or raise a result. -/
theorem exec_cases (i : Instr) (s : State) :
    (∃ v d, i.store? = none ∧ exec i s = .next ((s.writeReg (i.dest?.getD 0#5) v).setPc d)) ∨
    (∃ p v, i.store? = some p ∧ i.dest? = none ∧
      exec i s = .next ((s.setMem (s.mem.write (s.readReg p.1 + p.2.1) p.2.2 v)).setPc s.snpc)) ∨
    (∃ c, exec i s = raise c s) := by
  have load : ∀ (rd : RegIndex) a n ext, loadInto rd a n ext s = exec i s → i.store? = none →
      i.dest? = some rd →
      (∃ v d, i.store? = none ∧ exec i s = .next ((s.writeReg (i.dest?.getD 0#5) v).setPc d)) ∨
      (∃ c, exec i s = raise c s) := by
    intro rd a n ext he hs hd
    rcases loadInto_cases rd a n ext s with ⟨-, h⟩ | ⟨-, h⟩
    · exact .inl ⟨_, _, hs, by rw [← he, h, hd]; rfl⟩
    · exact .inr ⟨.memoryFault a, by rw [← he, h]; rfl⟩
  have store : ∀ rs1 imm n v, storeTo (effAddr s rs1 imm) n v s = exec i s →
      i.store? = some (rs1, imm, n) → i.dest? = none →
      (∃ p v, i.store? = some p ∧ i.dest? = none ∧
        exec i s = .next ((s.setMem (s.mem.write (s.readReg p.1 + p.2.1) p.2.2 v)).setPc s.snpc)) ∨
      (∃ c, exec i s = raise c s) := by
    intro rs1 imm n v he hs hd
    rcases storeTo_cases (effAddr s rs1 imm) n v s with ⟨-, h⟩ | ⟨-, h⟩
    · exact .inl ⟨_, v, hs, hd, by rw [← he, h]; rfl⟩
    · exact .inr ⟨.memoryFault (effAddr s rs1 imm), by rw [← he, h]; rfl⟩
  cases i
  case lw | lh | lhu | lbu => exact (load _ _ _ _ rfl rfl rfl).imp_right .inr
  case sw | sh | sb => exact .inr (store _ _ _ _ rfl rfl rfl)
  case ebreak => exact .inr (.inr ⟨.hostTrap (s.readReg s.trapArgReg), rfl⟩)
  case inv => exact .inr (.inr ⟨.decodeFault, rfl⟩)
  case beq | bne | blt | bge => exact .inl ⟨0#32, _, rfl, rfl⟩
  all_goals exact .inl ⟨_, _, rfl, rfl⟩

end Sys2Proof.Machine
end

