-- ==== Sys2Proof/Tests/Slice0.lean ====
section
/-!
SUPPORT. Tests of the model. Every expected value is copied from spec/95_test_vectors.md (T<n> and the row)
or, for the ill-formed terms, is an operand outside the range of 30_encoding.md R70.
-/

namespace Sys2Proof.Tests

open Sys2Proof.Machine

/-! ### Ill-formed terms are refused (WellFormed) -/

theorem test_wf_refuses_addi_2048 : (Instr.addi 1 0 2048).wf = false := by decide
theorem test_wf_refuses_lw_below : (Instr.lw 1 2 0xFFFFF7FF).wf = false := by decide
theorem test_wf_refuses_sw_2048 : (Instr.sw 1 2 2048).wf = false := by decide
theorem test_wf_refuses_jalr_4096 : (Instr.jalr 1 2 4096).wf = false := by decide
theorem test_wf_refuses_beq_odd : (Instr.beq 1 2 3).wf = false := by decide
theorem test_wf_refuses_bge_4096 : (Instr.bge 1 2 4096).wf = false := by decide
theorem test_wf_refuses_lui_low_bits : (Instr.lui 1 0x12345001).wf = false := by decide
theorem test_wf_refuses_jal_odd : (Instr.jal 1 5).wf = false := by decide
theorem test_wf_refuses_jal_1048576 : (Instr.jal 1 1048576).wf = false := by decide
theorem test_wf_refuses_slli_32 : (Instr.slli 1 2 32).wf = false := by decide
theorem test_wf_refuses_srai_without_bit10 : (Instr.srai 1 2 4).wf = false := by decide
theorem test_wf_admits_range_ends :
    (Instr.addi 1 0 2047).wf = true ∧ (Instr.lw 1 2 0xFFFFF800).wf = true ∧
    (Instr.beq 1 2 4094).wf = true ∧ (Instr.bge 1 2 0xFFFFF000).wf = true ∧
    (Instr.lui 1 0xFFFFF000).wf = true ∧ (Instr.jal 1 1048574).wf = true ∧
    (Instr.jal 1 0xFFF00000).wf = true ∧ (Instr.slli 1 2 31).wf = true ∧
    (Instr.srai 1 2 0x41F).wf = true := by decide

/-! ### Decoding and encoding: one word per row (T9) -/

theorem test_decode_lui : decodeWord 0xFFFFF0B7 = .lui 1 0xFFFFF000 := by decide
theorem test_decode_auipc : decodeWord 0x00001297 = .auipc 5 0x00001000 := by decide
theorem test_decode_lw : decodeWord 0x00032283 = .lw 5 6 0x00000000 := by decide
theorem test_decode_lh : decodeWord 0x00231283 = .lh 5 6 0x00000002 := by decide
theorem test_decode_lhu : decodeWord 0x00235283 = .lhu 5 6 0x00000002 := by decide
theorem test_decode_lbu : decodeWord 0x00134283 = .lbu 5 6 0x00000001 := by decide
theorem test_decode_sw : decodeWord 0x00732423 = .sw 6 7 0x00000008 := by decide
theorem test_decode_sh : decodeWord 0xFE731F23 = .sh 6 7 0xFFFFFFFE := by decide
theorem test_decode_sb : decodeWord 0x007301A3 = .sb 6 7 0x00000003 := by decide
theorem test_decode_addi : decodeWord 0x00500093 = .addi 1 0 0x00000005 := by decide
theorem test_decode_andi : decodeWord 0x0FF37293 = .andi 5 6 0x000000FF := by decide
theorem test_decode_xori : decodeWord 0xFFF34293 = .xori 5 6 0xFFFFFFFF := by decide
theorem test_decode_slli : decodeWord 0x01F31293 = .slli 5 6 0x0000001F := by decide
theorem test_decode_srli : decodeWord 0x00135293 = .srli 5 6 0x00000001 := by decide
theorem test_decode_srai : decodeWord 0x40435293 = .srai 5 6 0x00000404 := by decide
theorem test_decode_sltiu : decodeWord 0x00133293 = .sltiu 5 6 0x00000001 := by decide
theorem test_decode_add : decodeWord 0x002081B3 = .add 3 1 2 := by decide
theorem test_decode_sub : decodeWord 0x407302B3 = .sub 5 6 7 := by decide
theorem test_decode_and : decodeWord 0x007372B3 = .and 5 6 7 := by decide
theorem test_decode_or : decodeWord 0x007362B3 = .or 5 6 7 := by decide
theorem test_decode_xor : decodeWord 0x007342B3 = .xor 5 6 7 := by decide
theorem test_decode_sll : decodeWord 0x007312B3 = .sll 5 6 7 := by decide
theorem test_decode_srl : decodeWord 0x007352B3 = .srl 5 6 7 := by decide
theorem test_decode_sra : decodeWord 0x407352B3 = .sra 5 6 7 := by decide
theorem test_decode_slt : decodeWord 0x007322B3 = .slt 5 6 7 := by decide
theorem test_decode_sltu : decodeWord 0x007332B3 = .sltu 5 6 7 := by decide
theorem test_decode_mul : decodeWord 0x027302B3 = .mul 5 6 7 := by decide
theorem test_decode_mulh : decodeWord 0x027312B3 = .mulh 5 6 7 := by decide
theorem test_decode_div : decodeWord 0x027342B3 = .div 5 6 7 := by decide
theorem test_decode_rem : decodeWord 0x027362B3 = .rem 5 6 7 := by decide
theorem test_decode_divu : decodeWord 0x027352B3 = .divu 5 6 7 := by decide
theorem test_decode_remu : decodeWord 0x027372B3 = .remu 5 6 7 := by decide
theorem test_decode_jal : decodeWord 0x008000EF = .jal 1 0x00000008 := by decide
theorem test_decode_jalr : decodeWord 0x005100E7 = .jalr 1 2 0x00000005 := by decide
theorem test_decode_beq : decodeWord 0x00730863 = .beq 6 7 0x00000010 := by decide
theorem test_decode_bne : decodeWord 0x00731863 = .bne 6 7 0x00000010 := by decide
theorem test_decode_blt : decodeWord 0x00734863 = .blt 6 7 0x00000010 := by decide
theorem test_decode_bge : decodeWord 0x00735863 = .bge 6 7 0x00000010 := by decide
theorem test_decode_ebreak : decodeWord 0x00100073 = .ebreak := by decide
theorem test_decode_inv : decodeWord 0x00000000 = .inv := by decide

theorem test_encode_upper_memory :
    encodeWord (.lui 1 0xFFFFF000) = 0xFFFFF0B7 ∧
    encodeWord (.auipc 5 0x00001000) = 0x00001297 ∧
    encodeWord (.lw 5 6 0x00000000) = 0x00032283 ∧
    encodeWord (.lh 5 6 0x00000002) = 0x00231283 ∧
    encodeWord (.lhu 5 6 0x00000002) = 0x00235283 ∧
    encodeWord (.lbu 5 6 0x00000001) = 0x00134283 ∧
    encodeWord (.sw 6 7 0x00000008) = 0x00732423 ∧
    encodeWord (.sh 6 7 0xFFFFFFFE) = 0xFE731F23 ∧
    encodeWord (.sb 6 7 0x00000003) = 0x007301A3 := by decide

theorem test_encode_immediate :
    encodeWord (.addi 1 0 0x00000005) = 0x00500093 ∧
    encodeWord (.andi 5 6 0x000000FF) = 0x0FF37293 ∧
    encodeWord (.xori 5 6 0xFFFFFFFF) = 0xFFF34293 ∧
    encodeWord (.slli 5 6 0x0000001F) = 0x01F31293 ∧
    encodeWord (.srli 5 6 0x00000001) = 0x00135293 ∧
    encodeWord (.srai 5 6 0x00000404) = 0x40435293 ∧
    encodeWord (.sltiu 5 6 0x00000001) = 0x00133293 := by decide

theorem test_encode_register :
    encodeWord (.add 3 1 2) = 0x002081B3 ∧
    encodeWord (.sub 5 6 7) = 0x407302B3 ∧
    encodeWord (.and 5 6 7) = 0x007372B3 ∧
    encodeWord (.or 5 6 7) = 0x007362B3 ∧
    encodeWord (.xor 5 6 7) = 0x007342B3 ∧
    encodeWord (.sll 5 6 7) = 0x007312B3 ∧
    encodeWord (.srl 5 6 7) = 0x007352B3 ∧
    encodeWord (.sra 5 6 7) = 0x407352B3 ∧
    encodeWord (.slt 5 6 7) = 0x007322B3 ∧
    encodeWord (.sltu 5 6 7) = 0x007332B3 := by decide

theorem test_encode_muldiv :
    encodeWord (.mul 5 6 7) = 0x027302B3 ∧
    encodeWord (.mulh 5 6 7) = 0x027312B3 ∧
    encodeWord (.div 5 6 7) = 0x027342B3 ∧
    encodeWord (.rem 5 6 7) = 0x027362B3 ∧
    encodeWord (.divu 5 6 7) = 0x027352B3 ∧
    encodeWord (.remu 5 6 7) = 0x027372B3 := by decide

theorem test_encode_control :
    encodeWord (.jal 1 0x00000008) = 0x008000EF ∧
    encodeWord (.jalr 1 2 0x00000005) = 0x005100E7 ∧
    encodeWord (.beq 6 7 0x00000010) = 0x00730863 ∧
    encodeWord (.bne 6 7 0x00000010) = 0x00731863 ∧
    encodeWord (.blt 6 7 0x00000010) = 0x00734863 ∧
    encodeWord (.bge 6 7 0x00000010) = 0x00735863 ∧
    encodeWord (.ebreak) = 0x00100073 := by decide

/-! ### Words that are not instructions here (T10) -/

theorem test_not_instructions_a :
    ([0x00000000, 0xFFFFFFFF, 0x00030283, 0x00132293, 0x00136293, 0x00736863, 0x00737863, 0x027322B3, 0x027332B3, 0x0FF0000F, 0x0000100F, 0x00000073] : List Word).map decodeWord =
      List.replicate 12 .inv := by decide

theorem test_not_instructions_b :
    ([0x001000F3, 0x30200073, 0x10500073, 0x30529073, 0x342022F3, 0x02031293, 0x42035293, 0x80035293, 0x407312B3, 0x407372B3, 0x067302B3, 0x005110E7] : List Word).map decodeWord =
      List.replicate 12 .inv := by decide

theorem test_not_instructions_c :
    ([0x00732863, 0x00733863, 0x00033283, 0x00036283, 0x00733023, 0x00010001, 0x0000007F, 0x00500091, 0x00032007, 0x100322AF, 0x0013029B] : List Word).map decodeWord =
      List.replicate 11 .inv := by decide

/-! ### Immediates, one word bit at a time (T11) -/

theorem test_immI_bits :
    (List.range 25).map (fun k => immI (1#32 <<< (k + 7))) =
      [0, 0, 0, 0, 0, 0, 0, 0, 0, 0, 0, 0, 0, 0x00000001, 0x00000002, 0x00000004, 0x00000008,
       0x00000010, 0x00000020, 0x00000040, 0x00000080, 0x00000100, 0x00000200, 0x00000400,
       0xFFFFF800] := by decide

theorem test_immS_bits :
    (List.range 25).map (fun k => immS (1#32 <<< (k + 7))) =
      [0x00000001, 0x00000002, 0x00000004, 0x00000008, 0x00000010, 0, 0, 0, 0, 0, 0, 0, 0, 0,
       0, 0, 0, 0, 0x00000020, 0x00000040, 0x00000080, 0x00000100, 0x00000200, 0x00000400,
       0xFFFFF800] := by decide

theorem test_immB_bits :
    (List.range 25).map (fun k => immB (1#32 <<< (k + 7))) =
      [0x00000800, 0x00000002, 0x00000004, 0x00000008, 0x00000010, 0, 0, 0, 0, 0, 0, 0, 0, 0,
       0, 0, 0, 0, 0x00000020, 0x00000040, 0x00000080, 0x00000100, 0x00000200, 0x00000400,
       0xFFFFF000] := by decide

theorem test_immU_bits :
    (List.range 25).map (fun k => immU (1#32 <<< (k + 7))) =
      [0, 0, 0, 0, 0, 0x00001000, 0x00002000, 0x00004000, 0x00008000, 0x00010000, 0x00020000,
       0x00040000, 0x00080000, 0x00100000, 0x00200000, 0x00400000, 0x00800000, 0x01000000,
       0x02000000, 0x04000000, 0x08000000, 0x10000000, 0x20000000, 0x40000000, 0x80000000] := by decide

theorem test_immJ_bits :
    (List.range 25).map (fun k => immJ (1#32 <<< (k + 7))) =
      [0, 0, 0, 0, 0, 0x00001000, 0x00002000, 0x00004000, 0x00008000, 0x00010000, 0x00020000,
       0x00040000, 0x00080000, 0x00000800, 0x00000002, 0x00000004, 0x00000008, 0x00000010,
       0x00000020, 0x00000040, 0x00000080, 0x00000100, 0x00000200, 0x00000400, 0xFFF00000] := by decide

/-! ### Templates (R59, R60) -/

/-- The (mask, expected) pair of a row, from its template. -/
def compiled (e : PatternEntry) : Word × Word :=
  (templateMask (template e.mnemonic), templateExpected (template e.mnemonic))

theorem test_templates_upper_memory_first :
    (tableUpperMemory.take 5).map compiled = (tableUpperMemory.take 5).map (fun e => (e.mask, e.expected)) := by decide

theorem test_templates_upper_memory_rest :
    (tableUpperMemory.drop 5).map compiled = (tableUpperMemory.drop 5).map (fun e => (e.mask, e.expected)) := by decide

theorem test_templates_immediate_first :
    (tableImmediate.take 5).map compiled = (tableImmediate.take 5).map (fun e => (e.mask, e.expected)) := by decide

theorem test_templates_immediate_rest :
    (tableImmediate.drop 5).map compiled = (tableImmediate.drop 5).map (fun e => (e.mask, e.expected)) := by decide

theorem test_templates_register_first :
    (tableRegister.take 5).map compiled = (tableRegister.take 5).map (fun e => (e.mask, e.expected)) := by decide

theorem test_templates_register_rest :
    (tableRegister.drop 5).map compiled = (tableRegister.drop 5).map (fun e => (e.mask, e.expected)) := by decide

theorem test_templates_muldiv :
    tableMulDiv.map compiled = tableMulDiv.map (fun e => (e.mask, e.expected)) := by decide

theorem test_templates_control_first :
    (tableControl.take 5).map compiled = (tableControl.take 5).map (fun e => (e.mask, e.expected)) := by decide

theorem test_templates_control_rest :
    (tableControl.drop 5).map compiled = (tableControl.drop 5).map (fun e => (e.mask, e.expected)) := by decide

theorem test_templates_catch_all :
    [catchAll].map compiled = [catchAll].map (fun e => (e.mask, e.expected)) := by decide

/-! ### One step -/

/-- Memory admits 0x80000000 to 0x80001FFF for everything (the conventions of 95_test_vectors.md). -/
def ram : AddressMap :=
  [⟨0x80000000, 0x2000, [.byte, .half, .word], [.fetch, .read, .write], false⟩]

/-- The fixture of T13 and T14: the instruction word and eight data bytes. -/
def smallRam : AddressMap :=
  [⟨0x80000000, 4, [.byte, .half, .word], [.fetch, .read, .write], false⟩,
   ⟨0x80001000, 8, [.byte, .half, .word], [.fetch, .read, .write], false⟩]

/-- A state with some registers and some memory set. -/
def st (m : AddressMap) (pc : Word) (regs : List (RegIndex × Word)) (bytes : List Host.Cell) : State :=
  regs.foldl (fun s r => s.writeReg r.1 r.2)
    { regs := Vector.replicate 31 0, pc := pc,
      mem := bytes.foldl (fun mem c => mem.set c.1 c.2) [], admits := m, trapArgReg := 10 }

/-- The step that fetches `w` at the state's pc. -/
def stepOn (w : Word) (s : State) : Result :=
  step (s.placeWord w)

/-- A register and the pc after a step that continues. -/
def regPc (r : RegIndex) (o : Result) : Option (Word × Word) :=
  (Result.next? o).map (fun t => (t.readReg r, t.pc))

/-- The bytes at some addresses after a step that continues. -/
def bytesAfter (as : List Word) (o : Result) : Option (List Byte) :=
  (Result.next? o).map (fun t => as.map t.byteAt)

/-- What a step that ended the run carries: its kind's number, the pc, the code or address, and the pc it
leaves. -/
def stopPc (o : Result) : Option (Nat × Word × Word × Word) :=
  (Result.fault? o).map (fun f => match f with
    | .hostTrap pc code t => (0, pc, code, t.pc)
    | .decodeFault pc t => (1, pc, 0, t.pc)
    | .memoryFault pc a t => (2, pc, a, t.pc))

/-- The data bytes of T13. -/
def loadBytes : List Host.Cell :=
  [(0x80001000, 0x80), (0x80001001, 0xFF), (0x80001002, 0x7F), (0x80001003, 0x01),
   (0x80001004, 0xEF), (0x80001005, 0xBE), (0x80001006, 0xAD), (0x80001007, 0xDE)]

/-- The data bytes of T14. -/
def storeBytes : List Host.Cell :=
  (List.range 8).map (fun i => (0x80001000 + i, 0x55))

/-- T12: `lui x5,0x80000`. -/
theorem test_lui_1 :
    regPc 5 (stepOn 0x800002B7 (st ram 0x80000000 [] [])) =
      some (0x80000000, 0x80000004) := by decide

/-- T12: `lui x0,0x12345`. -/
theorem test_lui_2 :
    regPc 0 (stepOn 0x12345037 (st ram 0x80000000 [] [])) =
      some (0, 0x80000004) := by decide

/-- T12: `auipc x5,0xFFFFF`. -/
theorem test_auipc_1 :
    regPc 5 (stepOn 0xFFFFF297 (st ram 0x80000010 [] [])) =
      some (0x7FFFF010, 0x80000014) := by decide

/-- T12: `auipc x0,0x1`. -/
theorem test_auipc_2 :
    regPc 0 (stepOn 0x00001017 (st ram 0x80000000 [] [])) =
      some (0, 0x80000004) := by decide

/-- T13: `lw x5,1(x6)`. -/
theorem test_lw_1 :
    regPc 5 (stepOn 0x00132283 (st smallRam 0x80000000 [(6, 0x80001000)] loadBytes)) =
      some (0xEF017FFF, 0x80000004) := by decide

/-- T13: `lw x0,0(x6)`. -/
theorem test_lw_2 :
    stopPc (stepOn 0x00032003 (st smallRam 0x80000000 [(6, 0x90000000)] loadBytes)) =
      some (2, 0x80000000, 0x90000000, 0x80000000) := by decide

/-- T13: `lh x5,0(x6)`. -/
theorem test_lh_1 :
    regPc 5 (stepOn 0x00031283 (st smallRam 0x80000000 [(6, 0x80001000)] loadBytes)) =
      some (0xFFFFFF80, 0x80000004) := by decide

/-- T13: `lh x5,-1(x0)`. -/
theorem test_lh_2 :
    stopPc (stepOn 0xFFF01283 (st smallRam 0x80000000 [(5, 0x11111111)] loadBytes)) =
      some (2, 0x80000000, 0xFFFFFFFF, 0x80000000) := by decide

/-- T13: `lhu x5,0(x6)`. -/
theorem test_lhu_1 :
    regPc 5 (stepOn 0x00035283 (st smallRam 0x80000000 [(6, 0x80001000)] loadBytes)) =
      some (0x0000FF80, 0x80000004) := by decide

/-- T13: `lhu x5,6(x6)`. -/
theorem test_lhu_2 :
    regPc 5 (stepOn 0x00635283 (st smallRam 0x80000000 [(6, 0x80001000)] loadBytes)) =
      some (0x0000DEAD, 0x80000004) := by decide

/-- T13: `lbu x5,7(x6)`. -/
theorem test_lbu_1 :
    regPc 5 (stepOn 0x00734283 (st smallRam 0x80000000 [(6, 0x80001000)] loadBytes)) =
      some (0x000000DE, 0x80000004) := by decide

/-- T13: `lbu x5,8(x6)`. -/
theorem test_lbu_2 :
    stopPc (stepOn 0x00834283 (st smallRam 0x80000000 [(5, 0x11111111), (6, 0x80001000)] loadBytes)) =
      some (2, 0x80000000, 0x80001008, 0x80000000) := by decide

/-- T14: `sw x7,1(x6)`. -/
theorem test_sw_1 :
    bytesAfter [0x80001000, 0x80001001, 0x80001002, 0x80001003, 0x80001004, 0x80001005]
      (stepOn 0x007320A3 (st smallRam 0x80000000 [(6, 0x80001000), (7, 0xAABBCCDD)] storeBytes)) =
      some [0x55, 0xDD, 0xCC, 0xBB, 0xAA, 0x55] := by decide

/-- T14: `sw x7,0(x6)`. -/
theorem test_sw_2 :
    stopPc (stepOn 0x00732023 (st smallRam 0x80000000 [(6, 0x90000000), (7, 0x00000001)] storeBytes)) =
      some (2, 0x80000000, 0x90000000, 0x80000000) := by decide

/-- T14: `sh x7,0(x6)`. -/
theorem test_sh_1 :
    bytesAfter [0x80001000, 0x80001001, 0x80001002]
      (stepOn 0x00731023 (st smallRam 0x80000000 [(6, 0x80001000), (7, 0xDEADBEEF)] storeBytes)) =
      some [0xEF, 0xBE, 0x55] := by decide

/-- T14: `sh x7,2(x6)`. -/
theorem test_sh_2 :
    bytesAfter [0x80001001, 0x80001002, 0x80001003, 0x80001004]
      (stepOn 0x00731123 (st smallRam 0x80000000 [(6, 0x80001000), (7, 0x12348765)] storeBytes)) =
      some [0x55, 0x65, 0x87, 0x55] := by decide

/-- T14: `sb x7,3(x6)`. -/
theorem test_sb_1 :
    bytesAfter [0x80001002, 0x80001003, 0x80001004]
      (stepOn 0x007301A3 (st smallRam 0x80000000 [(6, 0x80001000), (7, 0x00000180)] storeBytes)) =
      some [0x55, 0x80, 0x55] := by decide

/-- T14: `sb x7,8(x6)`. -/
theorem test_sb_2 :
    stopPc (stepOn 0x00730423 (st smallRam 0x80000000 [(6, 0x80001000), (7, 0xAABBCCDD)] storeBytes)) =
      some (2, 0x80000000, 0x80001008, 0x80000000) := by decide

/-- T15: `addi x5,x6,1`. -/
theorem test_addi_1 :
    regPc 5 (stepOn 0x00130293 (st ram 0x80000000 [(6, 0x7FFFFFFF)] [])) =
      some (0x80000000, 0x80000004) := by decide

/-- T15: `addi x5,x5,1`. -/
theorem test_addi_2 :
    regPc 5 (stepOn 0x00128293 (st ram 0x80000000 [(5, 0x00000029)] [])) =
      some (0x0000002A, 0x80000004) := by decide

/-- T15: `andi x5,x6,255`. -/
theorem test_andi_1 :
    regPc 5 (stepOn 0x0FF37293 (st ram 0x80000000 [(6, 0x12345678)] [])) =
      some (0x00000078, 0x80000004) := by decide

/-- T15: `andi x5,x6,-16`. -/
theorem test_andi_2 :
    regPc 5 (stepOn 0xFF037293 (st ram 0x80000000 [(6, 0x12345678)] [])) =
      some (0x12345670, 0x80000004) := by decide

/-- T15: `xori x5,x6,-1`. -/
theorem test_xori_1 :
    regPc 5 (stepOn 0xFFF34293 (st ram 0x80000000 [(6, 0x12345678)] [])) =
      some (0xEDCBA987, 0x80000004) := by decide

/-- T15: `xori x5,x6,0x0F0`. -/
theorem test_xori_2 :
    regPc 5 (stepOn 0x0F034293 (st ram 0x80000000 [(6, 0x000000FF)] [])) =
      some (0x0000000F, 0x80000004) := by decide

/-- T15: `slli x5,x6,1`. -/
theorem test_slli_1 :
    regPc 5 (stepOn 0x00131293 (st ram 0x80000000 [(6, 0x80000001)] [])) =
      some (0x00000002, 0x80000004) := by decide

/-- T15: `slli x5,x6,31`. -/
theorem test_slli_2 :
    regPc 5 (stepOn 0x01F31293 (st ram 0x80000000 [(6, 0x00000003)] [])) =
      some (0x80000000, 0x80000004) := by decide

/-- T15: `srli x5,x6,1`. -/
theorem test_srli_1 :
    regPc 5 (stepOn 0x00135293 (st ram 0x80000000 [(6, 0x80000001)] [])) =
      some (0x40000000, 0x80000004) := by decide

/-- T15: `srli x5,x6,31`. -/
theorem test_srli_2 :
    regPc 5 (stepOn 0x01F35293 (st ram 0x80000000 [(6, 0x80000000)] [])) =
      some (0x00000001, 0x80000004) := by decide

/-- T15: `srai x5,x6,31`. -/
theorem test_srai_1 :
    regPc 5 (stepOn 0x41F35293 (st ram 0x80000000 [(6, 0x80000000)] [])) =
      some (0xFFFFFFFF, 0x80000004) := by decide

/-- T15: `srai x5,x6,4`. -/
theorem test_srai_2 :
    regPc 5 (stepOn 0x40435293 (st ram 0x80000000 [(6, 0x7FFFFFF0)] [])) =
      some (0x07FFFFFF, 0x80000004) := by decide

/-- T15: `sltiu x5,x6,-1`. -/
theorem test_sltiu_1 :
    regPc 5 (stepOn 0xFFF33293 (st ram 0x80000000 [(6, 0xFFFFFFFE)] [])) =
      some (0x00000001, 0x80000004) := by decide

/-- T15: `sltiu x5,x6,-2048`. -/
theorem test_sltiu_2 :
    regPc 5 (stepOn 0x80033293 (st ram 0x80000000 [(6, 0x7FFFFFFF)] [])) =
      some (0x00000001, 0x80000004) := by decide

/-- T16: `add x5,x6,x7`. -/
theorem test_add_1 :
    regPc 5 (stepOn 0x007302B3 (st ram 0x80000000 [(6, 0x7FFFFFFF), (7, 0x00000001)] [])) =
      some (0x80000000, 0x80000004) := by decide

/-- T16: `add x5,x5,x5`. -/
theorem test_add_2 :
    regPc 5 (stepOn 0x005282B3 (st ram 0x80000000 [(5, 0x00000015)] [])) =
      some (0x0000002A, 0x80000004) := by decide

/-- T16: `sub x5,x6,x7`. -/
theorem test_sub_1 :
    regPc 5 (stepOn 0x407302B3 (st ram 0x80000000 [(6, 0x00000000), (7, 0x00000001)] [])) =
      some (0xFFFFFFFF, 0x80000004) := by decide

/-- T16: `sub x5,x0,x5`. -/
theorem test_sub_2 :
    regPc 5 (stepOn 0x405002B3 (st ram 0x80000000 [(5, 0x00000001)] [])) =
      some (0xFFFFFFFF, 0x80000004) := by decide

/-- T16: `and x5,x6,x7`. -/
theorem test_and_1 :
    regPc 5 (stepOn 0x007372B3 (st ram 0x80000000 [(6, 0xFF00FF00), (7, 0x0FF00FF0)] [])) =
      some (0x0F000F00, 0x80000004) := by decide

/-- T16: `or x5,x6,x7`. -/
theorem test_or_1 :
    regPc 5 (stepOn 0x007362B3 (st ram 0x80000000 [(6, 0xFF00FF00), (7, 0x0FF00FF0)] [])) =
      some (0xFFF0FFF0, 0x80000004) := by decide

/-- T16: `xor x5,x6,x7`. -/
theorem test_xor_1 :
    regPc 5 (stepOn 0x007342B3 (st ram 0x80000000 [(6, 0xFF00FF00), (7, 0x0FF00FF0)] [])) =
      some (0xF0F0F0F0, 0x80000004) := by decide

/-- T16: `xor x5,x6,x7`. -/
theorem test_xor_2 :
    regPc 5 (stepOn 0x007342B3 (st ram 0x80000000 [(6, 0x12345678), (7, 0x12345678), (5, 0x00000009)] [])) =
      some (0x00000000, 0x80000004) := by decide

/-- T16: `sll x5,x6,x7`. -/
theorem test_sll_1 :
    regPc 5 (stepOn 0x007312B3 (st ram 0x80000000 [(6, 0x00000001), (7, 0x00000020), (5, 0x00000009)] [])) =
      some (0x00000001, 0x80000004) := by decide

/-- T16: `sll x5,x6,x7`. -/
theorem test_sll_2 :
    regPc 5 (stepOn 0x007312B3 (st ram 0x80000000 [(6, 0x00000003), (7, 0xFFFFFFFF)] [])) =
      some (0x80000000, 0x80000004) := by decide

/-- T16: `srl x5,x6,x7`. -/
theorem test_srl_1 :
    regPc 5 (stepOn 0x007352B3 (st ram 0x80000000 [(6, 0x80000000), (7, 0x00000020), (5, 0x00000009)] [])) =
      some (0x80000000, 0x80000004) := by decide

/-- T16: `srl x5,x6,x7`. -/
theorem test_srl_2 :
    regPc 5 (stepOn 0x007352B3 (st ram 0x80000000 [(6, 0x80000000), (7, 0x00000004)] [])) =
      some (0x08000000, 0x80000004) := by decide

/-- T16: `sra x5,x6,x7`. -/
theorem test_sra_1 :
    regPc 5 (stepOn 0x407352B3 (st ram 0x80000000 [(6, 0x80000000), (7, 0x00000004)] [])) =
      some (0xF8000000, 0x80000004) := by decide

/-- T16: `sra x5,x6,x7`. -/
theorem test_sra_2 :
    regPc 5 (stepOn 0x407352B3 (st ram 0x80000000 [(6, 0x80000000), (7, 0x00000024)] [])) =
      some (0xF8000000, 0x80000004) := by decide

/-- T16: `slt x5,x6,x7`. -/
theorem test_slt_1 :
    regPc 5 (stepOn 0x007322B3 (st ram 0x80000000 [(6, 0xFFFFFFFF), (7, 0x00000001)] [])) =
      some (0x00000001, 0x80000004) := by decide

/-- T16: `slt x5,x6,x7`. -/
theorem test_slt_2 :
    regPc 5 (stepOn 0x007322B3 (st ram 0x80000000 [(6, 0x80000000), (7, 0x7FFFFFFF)] [])) =
      some (0x00000001, 0x80000004) := by decide

/-- T16: `sltu x5,x6,x7`. -/
theorem test_sltu_1 :
    regPc 5 (stepOn 0x007332B3 (st ram 0x80000000 [(6, 0xFFFFFFFF), (7, 0x00000001), (5, 0x00000009)] [])) =
      some (0x00000000, 0x80000004) := by decide

/-- T16: `sltu x5,x6,x7`. -/
theorem test_sltu_2 :
    regPc 5 (stepOn 0x007332B3 (st ram 0x80000000 [(6, 0x00000001), (7, 0xFFFFFFFF)] [])) =
      some (0x00000001, 0x80000004) := by decide

/-- T17: `mul x5,x6,x7`. -/
theorem test_mul_1 :
    regPc 5 (stepOn 0x027302B3 (st ram 0x80000000 [(6, 0x80000000), (7, 0xFFFFFFFF)] [])) =
      some (0x80000000, 0x80000004) := by decide

/-- T17: `mul x5,x6,x7`. -/
theorem test_mul_2 :
    regPc 5 (stepOn 0x027302B3 (st ram 0x80000000 [(6, 0x12345678), (7, 0x9ABCDEF0)] [])) =
      some (0x242D2080, 0x80000004) := by decide

/-- T17: `mulh x5,x6,x7`. -/
theorem test_mulh_1 :
    regPc 5 (stepOn 0x027312B3 (st ram 0x80000000 [(6, 0x80000000), (7, 0x7FFFFFFF)] [])) =
      some (0xC0000000, 0x80000004) := by decide

/-- T17: `mulh x5,x6,x7`. -/
theorem test_mulh_2 :
    regPc 5 (stepOn 0x027312B3 (st ram 0x80000000 [(6, 0x12345678), (7, 0x9ABCDEF0)] [])) =
      some (0xF8CC93D6, 0x80000004) := by decide

/-- T17: `div x5,x6,x7`. -/
theorem test_div_1 :
    regPc 5 (stepOn 0x027342B3 (st ram 0x80000000 [(6, 0x00000007), (7, 0xFFFFFFFE)] [])) =
      some (0xFFFFFFFD, 0x80000004) := by decide

/-- T17: `div x5,x6,x7`. -/
theorem test_div_2 :
    regPc 5 (stepOn 0x027342B3 (st ram 0x80000000 [(6, 0x80000000), (7, 0xFFFFFFFF)] [])) =
      some (0x80000000, 0x80000004) := by decide

/-- T17: `rem x5,x6,x7`. -/
theorem test_rem_1 :
    regPc 5 (stepOn 0x027362B3 (st ram 0x80000000 [(6, 0xFFFFFFF9), (7, 0xFFFFFFFE)] [])) =
      some (0xFFFFFFFF, 0x80000004) := by decide

/-- T17: `rem x5,x6,x7`. -/
theorem test_rem_2 :
    regPc 5 (stepOn 0x027362B3 (st ram 0x80000000 [(6, 0x80000000), (7, 0xFFFFFFFF), (5, 0x00000009)] [])) =
      some (0x00000000, 0x80000004) := by decide

/-- T17: `divu x5,x6,x7`. -/
theorem test_divu_1 :
    regPc 5 (stepOn 0x027352B3 (st ram 0x80000000 [(6, 0xFFFFFFF9), (7, 0x00000002)] [])) =
      some (0x7FFFFFFC, 0x80000004) := by decide

/-- T17: `divu x5,x6,x7`. -/
theorem test_divu_2 :
    regPc 5 (stepOn 0x027352B3 (st ram 0x80000000 [(6, 0x00000007), (7, 0x00000000)] [])) =
      some (0xFFFFFFFF, 0x80000004) := by decide

/-- T17: `remu x5,x6,x7`. -/
theorem test_remu_1 :
    regPc 5 (stepOn 0x027372B3 (st ram 0x80000000 [(6, 0xFFFFFFF9), (7, 0x00000002)] [])) =
      some (0x00000001, 0x80000004) := by decide

/-- T17: `remu x5,x6,x7`. -/
theorem test_remu_2 :
    regPc 5 (stepOn 0x027372B3 (st ram 0x80000000 [(6, 0xFFFFFFF9), (7, 0x00000000)] [])) =
      some (0xFFFFFFF9, 0x80000004) := by decide

/-- T18: `jal x1,-4`. -/
theorem test_jal_1 :
    regPc 1 (stepOn 0xFFDFF0EF (st ram 0x80000010 [] [])) =
      some (0x80000014, 0x8000000C) := by decide

/-- T18: `jal x5,16`. -/
theorem test_jal_2 :
    regPc 5 (stepOn 0x010002EF (st ram 0xFFFFFFFC [(5, 0x00000009)] [])) =
      some (0x00000000, 0x0000000C) := by decide

/-- T18: `jalr x1,0(x1)`. -/
theorem test_jalr_1 :
    regPc 1 (stepOn 0x000080E7 (st ram 0x80000000 [(1, 0x80000100)] [])) =
      some (0x80000004, 0x80000100) := by decide

/-- T18: `jalr x5,-2048(x6)`. -/
theorem test_jalr_2 :
    regPc 5 (stepOn 0x800302E7 (st ram 0x80000000 [(6, 0x80001000)] [])) =
      some (0x80000004, 0x80000800) := by decide

/-- T19: `beq x6,x7,16`. -/
theorem test_beq_1 :
    regPc 0 (stepOn 0x00730863 (st ram 0x80000100 [(6, 0xFFFFFFFF), (7, 0x7FFFFFFF)] [])) =
      some (0, 0x80000104) := by decide

/-- T19: `beq x0,x0,-4`. -/
theorem test_beq_2 :
    regPc 0 (stepOn 0xFE000EE3 (st ram 0x80000100 [] [])) =
      some (0, 0x800000FC) := by decide

/-- T19: `bne x6,x7,16`. -/
theorem test_bne_1 :
    regPc 0 (stepOn 0x00731863 (st ram 0x80000100 [(6, 0x00000005), (7, 0x00000005)] [])) =
      some (0, 0x80000104) := by decide

/-- T19: `bne x6,x7,16`. -/
theorem test_bne_2 :
    regPc 0 (stepOn 0x00731863 (st ram 0x80000100 [(6, 0x80000000), (7, 0x00000000)] [])) =
      some (0, 0x80000110) := by decide

/-- T19: `blt x6,x7,16`. -/
theorem test_blt_1 :
    regPc 0 (stepOn 0x00734863 (st ram 0x80000100 [(6, 0xFFFFFFFF), (7, 0x00000001)] [])) =
      some (0, 0x80000110) := by decide

/-- T19: `blt x6,x7,16`. -/
theorem test_blt_2 :
    regPc 0 (stepOn 0x00734863 (st ram 0x80000100 [(6, 0x80000000), (7, 0x7FFFFFFF)] [])) =
      some (0, 0x80000110) := by decide

/-- T19: `bge x6,x7,16`. -/
theorem test_bge_1 :
    regPc 0 (stepOn 0x00735863 (st ram 0x80000100 [(6, 0x00000005), (7, 0x00000005)] [])) =
      some (0, 0x80000110) := by decide

/-- T19: `bge x6,x7,16`. -/
theorem test_bge_2 :
    regPc 0 (stepOn 0x00735863 (st ram 0x80000100 [(6, 0x80000000), (7, 0x7FFFFFFF)] [])) =
      some (0, 0x80000104) := by decide

/-- T20: `ebreak`. -/
theorem test_ebreak_1 :
    stopPc (stepOn 0x00100073 (st ram 0x8000000C [(10, 0x0000002A)] [])) =
      some (0, 0x8000000C, 0x0000002A, 0x80000010) := by decide

/-- T20: `ebreak`. -/
theorem test_ebreak_2 :
    stopPc (stepOn 0x00100073 (st ram 0x80000000 [(10, 0xFFFFFFFF), (11, 0x00000005)] [])) =
      some (0, 0x80000000, 0xFFFFFFFF, 0x80000004) := by decide

/-- T20: `word 0xFFFFFFFF`. -/
theorem test_inv_1 :
    stopPc (stepOn 0xFFFFFFFF (st ram 0x80000020 [] [])) =
      some (1, 0x80000020, 0, 0x80000024) := by decide

/-- T20: `word 0x00000073`. -/
theorem test_inv_2 :
    stopPc (stepOn 0x00000073 (st ram 0x80000000 [(10, 0x0000002A)] [])) =
      some (1, 0x80000000, 0, 0x80000004) := by decide

/-! ### The interface's two functions on a word of the table, evaluated by the kernel -/

/-- T9: the word of `addi x1,x0,5`, from the state right after reset. -/
theorem test_withFetchWord_after_reset :
    decodeTableWord 32 0x00500093 = some (.addi 1 0 5) ∧
    regPc 1 (step (State.reset.withFetchWord 32 0x00500093)) = some (5, 0x80000004) := by decide

/-- Nothing placed: the first word after reset is zero, which is no instruction (T10). -/
theorem test_reset_unplaced : stopPc (step State.reset) = some (1, 0x80000000, 0, 0x80000004) := by decide

/-! ### Witnesses: for each statement with hypotheses, a state and operands that meet them together

`witness_<Name>` belongs to `Obligations.<Name>`. Where a statement has several clauses, there is one
conjunct for each. -/

theorem exists_next {o : Result} (h : (Result.next? o).isSome = true) : ∃ t, o = .next t := by
  cases o with
  | next t => exact ⟨t, rfl⟩
  | fault f => cases h
  | refused r => cases h

theorem exists_fault {o : Result} (h : (Result.fault? o).isSome = true) : ∃ f, o = .fault f := by
  cases o with
  | next t => cases h
  | fault f => exact ⟨f, rfl⟩
  | refused r => cases h

/-- A small state: x5 holds the address of the eight data bytes, x6 their last byte's, x7 a value, x8 the
address of the next instruction. -/
def wst : State :=
  st smallRam 0x80000000 [(5, 0x80001000), (6, 0x80001007), (7, 0x00500093), (8, 0x80000004)] loadBytes

theorem witness_DecodeOfEncode :
    (Instr.lui 31 0xFFFFF000).wf = true ∧ (Instr.lw 31 31 0xFFFFF800).wf = true ∧
    (Instr.sb 31 31 0x7FF).wf = true ∧ (Instr.srai 31 31 0x41F).wf = true ∧ (Instr.add 31 31 31).wf = true ∧
    (Instr.remu 0 0 0).wf = true ∧ (Instr.jal 31 0xFFF00000).wf = true ∧ (Instr.bge 31 31 4094).wf = true ∧
    Instr.ebreak.wf = true ∧ Instr.inv.wf = true := by decide

theorem witness_EncodeOfDecode :
    decodeWord 0xFFFFF0B7 ≠ .inv ∧ decodeWord 0x40435293 ≠ .inv ∧ decodeWord 0x00100073 ≠ .inv := by decide

theorem witness_LeastMatchingRowSelected :
    ∃ e', table[0]? = some e' ∧ 0x00032283#32 &&& e'.mask ≠ e'.expected ∧
      table[2]? = some (matchWord 0x00032283) := ⟨_, rfl, by decide, by decide⟩

theorem witness_DefinedRowsDisjoint :
    matchWord 0x00032283 ∈ definedRows ∧
    0x00032283#32 &&& (matchWord 0x00032283).mask = (matchWord 0x00032283).expected := by decide

theorem witness_ZeroRegisterAlwaysReadsZero :
    ∃ t, Host.Core.run Sys2Proof.core 1 (wst.placeWord 0x00500093) = .next t :=
  exists_next (o := Host.Core.run Sys2Proof.core 1 (wst.placeWord 0x00500093)) (by decide)

theorem witness_SourcesReadBeforeDestination : (5 : RegIndex) ≠ 0#5 := by decide

theorem witness_ResetForEveryParameter :
    (Boot.default.resetPc[0] = false ∧ Boot.default.memInit.wf ∧ (30 : Nat) < 31) ∧
    (Boot.mk 0x80000001 10 [] [] Config.xInit).resetPc[0] = true := by decide

theorem witness_ResetMeetsInvariant : State.boot Boot.default = some State.reset := by decide

theorem witness_StepKeepsInvariant :
    (wst.placeWord 0x008000EF).Inv ∧ ∃ t, step (wst.placeWord 0x008000EF) = .next t :=
  ⟨by decide, exists_next (by decide)⟩

theorem witness_StepKeepsParameters :
    (∃ t, step (wst.placeWord 0x00728023) = .next t) ∧ ∃ f, step wst = .fault f :=
  ⟨exists_next (by decide), exists_fault (by decide)⟩

theorem witness_ImmediateAluCommon :
    decodeWord 0x00500093 = .addi 1 0 5 ∧ decodeWord 0x0FF37293 = .andi 5 6 0xFF ∧
    decodeWord 0xFFF34293 = .xori 5 6 0xFFFFFFFF ∧ decodeWord 0x01F31293 = .slli 5 6 0x1F ∧
    decodeWord 0x00135293 = .srli 5 6 1 ∧ decodeWord 0x40435293 = .srai 5 6 0x404 ∧
    decodeWord 0x00133293 = .sltiu 5 6 1 := by decide

theorem witness_RegisterAluCommon :
    decodeWord 0x002081B3 = .add 3 1 2 ∧ decodeWord 0x407302B3 = .sub 5 6 7 ∧
    decodeWord 0x007372B3 = .and 5 6 7 ∧ decodeWord 0x007362B3 = .or 5 6 7 ∧
    decodeWord 0x007342B3 = .xor 5 6 7 ∧ decodeWord 0x007312B3 = .sll 5 6 7 ∧
    decodeWord 0x007352B3 = .srl 5 6 7 ∧ decodeWord 0x407352B3 = .sra 5 6 7 ∧
    decodeWord 0x007322B3 = .slt 5 6 7 ∧ decodeWord 0x007332B3 = .sltu 5 6 7 := by decide

theorem witness_MulDivCommon :
    decodeWord 0x027302B3 = .mul 5 6 7 ∧ decodeWord 0x027312B3 = .mulh 5 6 7 ∧
    decodeWord 0x027342B3 = .div 5 6 7 ∧ decodeWord 0x027362B3 = .rem 5 6 7 ∧
    decodeWord 0x027352B3 = .divu 5 6 7 ∧ decodeWord 0x027372B3 = .remu 5 6 7 := by decide

/-- Division: x0 as a divisor is zero; the overflow; the values next to it on either side. -/
theorem witness_SignedDivisionValues :
    wst.readReg 0 = 0#32 ∧
    ((st ram 0 [(1, 0x80000000), (2, 0xFFFFFFFF)] []).readReg 1 = 0x80000000#32 ∧
      (st ram 0 [(1, 0x80000000), (2, 0xFFFFFFFF)] []).readReg 2 = 0xFFFFFFFF#32) ∧
    ((st ram 0 [(1, 0x80000001), (2, 0xFFFFFFFF)] []).readReg 1 ≠ 0x80000000#32 ∧
      (st ram 0 [(1, 0x80000001), (2, 0xFFFFFFFF)] []).readReg 2 ≠ 0#32) := by decide

theorem witness_UnsignedDivisionValues : wst.readReg 0 = 0#32 ∧ wst.readReg 5 ≠ 0#32 := by decide

theorem witness_QuotientTimesDivisorPlusRemainder : (5 : RegIndex) ≠ 0#5 := by decide

theorem witness_NonMemoryInstructionsIgnoreMemory :
    (Instr.add 3 1 2).load? = none ∧ (Instr.add 3 1 2).store? = none ∧
      ∃ t, exec (.add 3 1 2) wst = .next t := ⟨rfl, rfl, _, rfl⟩

theorem witness_BranchResults : wst.pc[0] = false ∧ (0xFFFFF000 : Word)[0] = false := by decide

/-- An odd pc and an odd immediate; each condition holds of one pair of registers and fails of another. -/
theorem witness_BranchesForceBitZero :
    (wst.setPc 1).pc[0] = true ∧ (17 : Word)[0] = true ∧
    (wst.readReg 7 = wst.readReg 7 ∧ ¬ wst.readReg 6 = wst.readReg 7) ∧
    (wst.readReg 6 ≠ wst.readReg 7 ∧ ¬ wst.readReg 7 ≠ wst.readReg 7) ∧
    ((wst.readReg 6).toInt < (wst.readReg 7).toInt ∧ ¬ (wst.readReg 7).toInt < (wst.readReg 7).toInt) ∧
    ((wst.readReg 7).toInt ≤ (wst.readReg 7).toInt ∧ ¬ (wst.readReg 7).toInt ≤ (wst.readReg 6).toInt) := by
  decide

theorem witness_BranchPairsAreComplements :
    (wst.pc + 16#32) &&& 0xFFFFFFFE#32 ≠ wst.pc + 4#32 := by decide

theorem witness_NextPcMultiplexer :
    (∃ t, exec (.jalr 1 5 1) wst = .next t) ∧ wst.pc[0] = false ∧ (4094 : Word)[0] = false :=
  ⟨⟨_, rfl⟩, by decide, by decide⟩

/-- The highest address at which the fixture admits each width. -/
theorem witness_LoadResults :
    mapAdmits wst.admits (effAddr wst 5 4) .word .read = true ∧
    mapAdmits wst.admits (effAddr wst 5 6) .half .read = true ∧
    mapAdmits wst.admits (effAddr wst 5 7) .byte .read = true := by decide

/-- One past it: the access begins inside and runs out. -/
theorem witness_LoadFaults :
    ((Instr.lw 0 5 5).load? = some (5, 5, .word) ∧
      mapAdmits wst.admits (effAddr wst 5 5) .word .read = false) ∧
    ((Instr.lhu 1 6 0).load? = some (6, 0, .half) ∧
      mapAdmits wst.admits (effAddr wst 6 0) .half .read = false) ∧
    ((Instr.lbu 1 6 1).load? = some (6, 1, .byte) ∧
      mapAdmits wst.admits (effAddr wst 6 1) .byte .read = false) := by decide

theorem witness_StoreResults :
    mapAdmits wst.admits (effAddr wst 5 4) .word .write = true ∧
    mapAdmits wst.admits (effAddr wst 5 6) .half .write = true ∧
    mapAdmits wst.admits (effAddr wst 5 7) .byte .write = true ∧ wst.mem.wf := by decide

theorem witness_StoreFaults :
    ((Instr.sw 5 7 5).store? = some (5, 5, .word) ∧
      mapAdmits wst.admits (effAddr wst 5 5) .word .write = false) ∧
    ((Instr.sh 6 7 0).store? = some (6, 0, .half) ∧
      mapAdmits wst.admits (effAddr wst 6 0) .half .write = false) ∧
    ((Instr.sb 6 7 1).store? = some (6, 1, .byte) ∧
      mapAdmits wst.admits (effAddr wst 6 1) .byte .write = false) := by decide

theorem witness_StoredWordReadsBackInPieces :
    wst.mem.wf ∧ ∃ t, exec (.sw 5 7 4) wst = .next t ∧
      (effAddr t 5 4 = effAddr wst 5 4 ∧ mapAdmits t.admits (effAddr t 5 4) .word .read = true) ∧
      (0 < 3 ∧ effAddr t 5 4 = effAddr wst 5 4 + BitVec.ofNat 32 0 ∧
        mapAdmits t.admits (effAddr t 5 4) .half .read = true) ∧
      (2 < 3 ∧ effAddr t 5 6 = effAddr wst 5 4 + BitVec.ofNat 32 2 ∧
        mapAdmits t.admits (effAddr t 5 6) .half .read = true) ∧
      (0 < 4 ∧ effAddr t 5 4 = effAddr wst 5 4 + BitVec.ofNat 32 0 ∧
        mapAdmits t.admits (effAddr t 5 4) .byte .read = true) ∧
      (3 < 4 ∧ effAddr t 6 0 = effAddr wst 5 4 + BitVec.ofNat 32 3 ∧
        mapAdmits t.admits (effAddr t 6 0) .byte .read = true) :=
  ⟨by decide, _, rfl, by decide, by decide, by decide, by decide, by decide⟩

theorem witness_StoredWordIsExecutedNext :
    (wst.setAdmits ram).mem.wf ∧ ∃ t, exec (.sw 8 7 0) (wst.setAdmits ram) = .next t ∧
      effAddr (wst.setAdmits ram) 8 0 = t.pc ∧ mapAdmits t.admits t.pc .word .fetch = true :=
  ⟨by decide, _, rfl, by decide, by decide⟩

/-- A word fetched, and what it decodes to. -/
theorem witness_StepRunsDecodedInstruction :
    mapAdmits (wst.placeWord 0x00500093).admits (wst.placeWord 0x00500093).pc .word .fetch = true ∧
    (wst.placeWord 0x00500093).fetch = some 0x00500093 ∧
    [0, 1, 2, 3].map (fun i => (wst.placeWord 0x00500093).byteAt (0x80000000#32 + i)) =
      [0x93, 0x00, 0x50, 0x00] ∧
    decodeWord (wordOfBytes 0x93 0x00 0x50 0x00) = .addi 1 0 5 := by decide

theorem witness_RefusedFetchFaults :
    mapAdmits (wst.setPc 0x80000002).admits (wst.setPc 0x80000002).pc .word .fetch = false := by decide

theorem witness_DecodeFaultCarriesFetchAddress :
    wst.fetch = some 0#32 ∧ ∀ e ∈ definedRows, 0#32 &&& e.mask ≠ e.expected := by decide

/-- A refused fetch; the host trap; no row; a refused load; a refused store; none of these. -/
theorem witness_StepResultClassified :
    (wst.setPc 0x80000002).fetch = none ∧
    (wst.placeWord 0x00100073).fetch = some 0x00100073 ∧
    (wst.fetch = some 0#32 ∧ ∀ e ∈ definedRows, 0#32 &&& e.mask ≠ e.expected) ∧
    ((wst.placeWord 0x00532283).fetch = some 0x00532283 ∧
      (decodeWord 0x00532283).load? = some (6, 5, .word) ∧
      mapAdmits wst.admits (wst.readReg 6 + 5) .word .read = false) ∧
    ((wst.placeWord 0x00732423).fetch = some 0x00732423 ∧
      (decodeWord 0x00732423).store? = some (6, 8, .word) ∧
      mapAdmits wst.admits (wst.readReg 6 + 8) .word .write = false) := by decide

theorem witness_StepResultClassified_continues :
    (wst.placeWord 0x0002A283).fetch = some 0x0002A283 ∧ 0x0002A283#32 ≠ 0x00100073#32 ∧
    (∃ e ∈ definedRows, 0x0002A283#32 &&& e.mask = e.expected) ∧
    (decodeWord 0x0002A283).load? = some (5, 0, .word) ∧
    mapAdmits wst.admits (wst.readReg 5 + 0) .word .read = true ∧
    (decodeWord 0x0002A283).store? = none := by decide

/-- A host trap, a decode fault, a memory fault. -/
theorem witness_ResultsArePrecise :
    (∃ f, step (wst.placeWord 0x00100073) = .fault f) ∧ (∃ f, step wst = .fault f) ∧
    ∃ f, step (wst.placeWord 0x00732423) = .fault f :=
  ⟨exists_fault (by decide), exists_fault (by decide), exists_fault (by decide)⟩

/-- A load into x5, which is not x6; a store of one byte, and the byte before it. -/
theorem witness_InstructionWritesOnlyItsDestination :
    ((∃ t, exec (.lw 5 5 0) wst = .next t) ∧ (Instr.lw 5 5 0).dest? ≠ some 6) ∧
    (∃ t, exec (.sb 6 7 0) wst = .next t) ∧ (Instr.sb 6 7 0).store? = some (6, 0, .byte) ∧
      ¬ InAccess (effAddr wst 6 0) .byte 0x80001006 := by
  refine ⟨⟨⟨_, rfl⟩, by decide⟩, ⟨_, rfl⟩, rfl, fun ⟨i, hi, h⟩ => ?_⟩
  have h1 : ∀ j : Fin 1, 0x80001006#32 ≠ effAddr wst 6 0 + BitVec.ofNat 32 j.val := by decide
  exact h1 ⟨i, hi⟩ h

theorem witness_PlacedWordRuns :
    State.reset.mem.wf ∧ ¬ InAccess State.reset.pc .word (State.reset.pc + 4#32) := by
  refine ⟨by decide, fun ⟨i, hi, h⟩ => ?_⟩
  have h4 : ∀ j : Fin 4, State.reset.pc + 4#32 ≠ State.reset.pc + BitVec.ofNat 32 j.val := by decide
  exact h4 ⟨i, hi⟩ h

end Sys2Proof.Tests
end

section
/-!
PROOF. Every predicate of accesses is the MemAdmits of some address map (R6, R39, log 3). One grant can
isolate one access: its range is exactly the access's bytes, so an access of the same width that starts
anywhere else has its first or its last byte outside. There are finitely many accesses, so the grants
that isolate the accesses a predicate holds of make up an address map.
-/

namespace Sys2Proof

theorem Width.bytes_pos (n : Width) : 0 < n.bytes := by cases n <;> decide

theorem Width.bytes_le_four (n : Width) : n.bytes ≤ 4 := by cases n <;> decide

end Sys2Proof

namespace Sys2Proof.Machine

/-- The grant of one access alone. -/
def isolatingGrant (a : Word) (n : Width) (k : AccessKind) : Grant :=
  { base := a, size := n.bytes, widths := [n], kinds := [k], aligned := false }

/-- The address map of the listed accesses alone. -/
def isolatingMap (accesses : List (Word × Width × AccessKind)) : AddressMap :=
  accesses.map fun x => isolatingGrant x.1 x.2.1 x.2.2

/-- The first and the last byte decide: they cannot both lie in the range unless the access starts it,
because the range is far shorter than the address space that offsets wrap around in (R38). -/
theorem bytes_in_range_iff (a b : Word) (n : Width) :
    (∀ i < n.bytes, (b + BitVec.ofNat 32 i - a).toNat < n.bytes) ↔ b = a := by
  have hpos := n.bytes_pos
  have hle := n.bytes_le_four
  constructor
  · intro h
    have hfirst := h 0 hpos
    have hlast := h (n.bytes - 1) (by omega)
    bv_omega
  · rintro rfl i hi
    bv_omega

theorem grantAdmits_isolatingGrant_iff_bytes (a b : Word) (n m : Width) (k j : AccessKind) :
    grantAdmits (isolatingGrant a n k) b m j = true ↔
      m = n ∧ j = k ∧ ∀ i < m.bytes, (b + BitVec.ofNat 32 i - a).toNat < n.bytes := by
  simp [grantAdmits, isolatingGrant, and_assoc]

theorem grantAdmits_isolatingGrant (a b : Word) (n m : Width) (k j : AccessKind) :
    grantAdmits (isolatingGrant a n k) b m j = true ↔ (b, m, j) = (a, n, k) := by
  rw [grantAdmits_isolatingGrant_iff_bytes, Prod.mk.injEq, Prod.mk.injEq]
  constructor
  · rintro ⟨rfl, rfl, hbytes⟩
    exact ⟨(bytes_in_range_iff a b m).mp hbytes, rfl, rfl⟩
  · rintro ⟨rfl, rfl, rfl⟩
    exact ⟨rfl, rfl, (bytes_in_range_iff b b m).mpr rfl⟩

theorem mapAdmits_isolatingMap (accesses : List (Word × Width × AccessKind)) (a : Word) (n : Width)
    (k : AccessKind) : mapAdmits (isolatingMap accesses) a n k = true ↔ (a, n, k) ∈ accesses := by
  simp [mapAdmits, isolatingMap, grantAdmits_isolatingGrant]

/-- There are finitely many accesses. -/
theorem exists_list_of_all_accesses :
    ∃ accesses : List (Word × Width × AccessKind), ∀ x, x ∈ accesses := by
  refine ⟨(List.finRange (2 ^ 32)).map BitVec.ofFin ×ˢ [.byte, .half, .word] ×ˢ [.fetch, .read, .write], ?_⟩
  rintro ⟨a, n, k⟩
  have ha : a ∈ (List.finRange (2 ^ 32)).map BitVec.ofFin :=
    List.mem_map_of_mem (List.mem_finRange a.toFin)
  have hn : n ∈ [Width.byte, .half, .word] := by cases n <;> decide
  have hk : k ∈ [AccessKind.fetch, .read, .write] := by cases k <;> decide
  exact List.mem_product.mpr ⟨ha, List.mem_product.mpr ⟨hn, hk⟩⟩

/-- Settles O18: the map that isolates exactly the accesses the predicate holds of. -/
theorem everyMemAdmitsIsAnAddressMap : Obligations.EveryMemAdmitsIsAnAddressMap := by
  intro P
  obtain ⟨accesses, hall⟩ := exists_list_of_all_accesses
  refine ⟨isolatingMap (accesses.filter fun x => P x.1 x.2.1 x.2.2), fun a n k => ?_⟩
  rw [Bool.eq_iff_iff, mapAdmits_isolatingMap]
  simp [hall]

end Sys2Proof.Machine
end

section
/-!
PROOF. The reset state, for every value of the five parameters (10_state.md R20, R24; R230).
-/

namespace Sys2Proof.Machine

/-- The register file's cells in order: `x(n+1)` reads cell `n` (R10, R11). -/
theorem readReg_ofNat_succ (s : State) {n : Nat} (h : n < 31) :
    s.readReg (BitVec.ofNat 5 (n + 1)) = s.regs[n] := by
  have htoNat : (BitVec.ofNat 5 (n + 1)).toNat = n + 1 := by
    rw [BitVec.toNat_ofNat, Nat.mod_eq_of_lt (by omega)]
  have hne : BitVec.ofNat 5 (n + 1) ≠ 0#5 := fun h0 => by simp [h0] at htoNat
  simp [State.readReg, hne, htoNat]

theorem boot_of_wf {b : Boot} (h : b.wf) : State.boot b = some (State.ofBoot b) :=
  if_pos h

/-- An odd RESET_PC is refused (U6). -/
theorem boot_of_odd {b : Boot} (h : b.resetPc[0] = true) : State.boot b = none :=
  if_neg fun ⟨heven, _⟩ => Bool.false_ne_true (heven.symm.trans h)

theorem boot_eq_some_iff {b : Boot} {s : State} : State.boot b = some s ↔ b.wf ∧ State.ofBoot b = s := by
  simp [State.boot]

theorem boot_default : State.boot Boot.default = some State.reset :=
  boot_of_wf (by decide)

/-- The pc of a reset state is RESET_PC and its memory is MEM_INIT, so the conditions on the two carry
over. -/
theorem inv_of_boot {b : Boot} {s : State} (h : State.boot b = some s) : s.Inv := by
  obtain ⟨hwf, rfl⟩ := boot_eq_some_iff.mp h
  exact hwf

/-- Settles O12: x0 has no cell, so no step needs to be followed. -/
theorem zeroRegisterAlwaysReadsZero : Obligations.ZeroRegisterAlwaysReadsZero :=
  ⟨readReg_zero, fun _ _ t _ => readReg_zero t⟩

/-- Settles O14: each field of the reset state is one parameter. -/
theorem resetForEveryParameter : Obligations.ResetForEveryParameter := by
  refine ⟨fun b heven hmem => ?_, fun b => boot_of_odd, Boot.default, boot_default⟩
  exact ⟨State.ofBoot b, boot_of_wf ⟨heven, hmem⟩, rfl, readReg_zero _,
    fun _ => readReg_ofNat_succ (State.ofBoot b), fun _ => rfl, rfl, rfl⟩

/-- Settles O15: `State.reset` is the reset state of the default parameters, which the spec allows. -/
theorem resetMeetsInvariant : Obligations.ResetMeetsInvariant :=
  ⟨inv_of_boot boot_default, fun _ _ => inv_of_boot⟩

end Sys2Proof.Machine
end

section
/-!
PROOF. MATCH selects a row of the table, and the instruction is that row's (40_decode_and_step.md R85 to R88).
So a `jal` was extracted under format J, whose immediate ends in a 0 bit (30_encoding.md R57).
-/

namespace Sys2Proof

theorem scan_mem_or_catchAll (w : Word) (rows : List PatternEntry) :
    scan w rows ∈ rows ∨ scan w rows = catchAll := by
  induction rows with
  | nil => exact .inr rfl
  | cons e rest ih =>
    unfold scan
    split
    · exact .inl List.mem_cons_self
    · exact ih.imp_left (List.mem_cons_of_mem e)

theorem matchWord_mem_table (w : Word) : matchWord w ∈ table := by
  rcases scan_mem_or_catchAll w table with h | h
  · exact h
  · rw [matchWord, h]
    exact List.mem_append_right definedRows List.mem_cons_self

@[simp] theorem assemble_mnemonic (m : Mnemonic) (f : Fields) : (assemble m f).mnemonic = m := by
  cases m <;> rfl

theorem decodeWord_mnemonic (w : Word) : (decodeWord w).mnemonic = (matchWord w).mnemonic :=
  assemble_mnemonic _ _

theorem table_jal_format : ∀ e ∈ table, e.mnemonic = .jal → e.format = .j := by decide

theorem decodeWord_jal_imm {w imm : Word} {rd : RegIndex} (h : decodeWord w = .jal rd imm) :
    imm = immJ w := by
  have hmnemonic : (matchWord w).mnemonic = .jal := by rw [← decodeWord_mnemonic, h]; rfl
  have hformat := table_jal_format _ (matchWord_mem_table w) hmnemonic
  have hdecode : decodeWord w = .jal (fieldRd w) (immJ w) := by
    rw [decodeWord, hmnemonic, hformat]; rfl
  exact (Instr.jal.inj (h.symm.trans hdecode)).2

theorem immJ_even (w : Word) : (immJ w)[0] = false := by
  rw [immJ, BitVec.getElem_signExtend, dif_pos (by decide), BitVec.getElem_append]
  rfl

end Sys2Proof
end

section
/-!
PROOF. Every step keeps the invariant (10_state.md R16, R24). The pc a step commits is R92's: a target with
bit 0 forced to 0, `pc + 4`, or for `jal` the pc plus an even immediate. Memory changes by a store alone,
which keeps the canonical form.
-/

namespace Sys2Proof.Machine
open Sys2Proof.Claims

/-! ### The committed pc (R92) -/

/-- The comparisons of a branch are `decide` of R92's conditions. -/
theorem nextPc_decide (p : Prop) [Decidable p] (target snpc : Word) :
    nextPc (decide p) target snpc = if p then target else snpc := by
  simp [nextPc]

theorem nextPc_not_decide (p : Prop) [Decidable p] (target snpc : Word) :
    nextPc (!decide p) target snpc = if ¬ p then target else snpc := by
  rw [← decide_not, nextPc_decide]

theorem loadInto_next_pc {rd : RegIndex} {a : Word} {n : Width} {ext : Word → Word} {s t : State}
    (h : loadInto rd a n ext s = .next t) : t.pc = s.pc + 4#32 := by
  rcases loadInto_cases rd a n ext s with ⟨-, hnext⟩ | ⟨-, hfault⟩
  · cases hnext.symm.trans h; rfl
  · cases hfault.symm.trans h

theorem storeTo_next_pc {a v : Word} {n : Width} {s t : State} (h : storeTo a n v s = .next t) :
    t.pc = s.pc + 4#32 := by
  rcases storeTo_cases a n v s with ⟨-, hnext⟩ | ⟨-, hfault⟩
  · cases hnext.symm.trans h; rfl
  · cases hfault.symm.trans h

/-- An instruction that continues commits its entry of R92's table. -/
theorem exec_next_pc {i : Instr} {s t : State} (h : exec i s = .next t) : t.pc = dnpcOf s i := by
  cases i
  case lw | lh | lhu | lbu => exact loadInto_next_pc h
  case sw | sh | sb => exact storeTo_next_pc h
  case beq | blt => cases h; exact nextPc_decide _ _ _
  case bne => cases h; exact nextPc_not_decide _ _ _
  case bge rs1 rs2 imm =>
    cases h
    simp only [dnpcOf, ge_iff_le, ← Int.not_lt]
    exact nextPc_not_decide _ _ _
  case ebreak => exact absurd h (raise_ne_next (.hostTrap (s.readReg s.trapArgReg)) s t)
  case inv => exact absurd h (raise_ne_next .decodeFault s t)
  all_goals cases h; rfl

/-! ### Evenness (R16, R24) -/

theorem add_even {a b : Word} (ha : a[0] = false) (hb : b[0] = false) : (a + b)[0] = false := by
  simp [BitVec.getElem_add, ha, hb]

theorem ite_clearBit0_even {p : Prop} [Decidable p] (target : Word) {snpc : Word} (h : snpc[0] = false) :
    (if p then clearBit0 target else snpc)[0] = false := by
  split
  · exact clearBit0_even target
  · exact h

/-- Only `jal` relies on its immediate: every other entry forces bit 0 or adds 4. -/
theorem dnpcOf_even {i : Instr} {s : State} (hpc : s.pc[0] = false)
    (himm : ∀ rd imm, i = .jal rd imm → imm[0] = false) : (dnpcOf s i)[0] = false := by
  have hsnpc : (s.pc + 4#32)[0] = false := add_even hpc (by decide)
  cases i
  case jal rd imm => exact add_even hpc (himm rd imm rfl)
  case jalr => exact clearBit0_even _
  case beq | bne | blt | bge => exact ite_clearBit0_even _ hsnpc
  all_goals exact hsnpc

/-! ### The invariant -/

theorem exec_next_mem_wf {i : Instr} {s t : State} (hm : s.mem.wf) (h : exec i s = .next t) :
    t.mem.wf := by
  rcases exec_cases i s with ⟨v, d, -, hwrite⟩ | ⟨p, v, -, -, hstore⟩ | ⟨c, hraise⟩
  · cases hwrite.symm.trans h
    simpa using hm
  · cases hstore.symm.trans h
    exact write_wf hm _ _ _
  · exact absurd (hraise.symm.trans h) (raise_ne_next c s t)

/-- A step that continues fetched a word and executed the instruction it decodes to. -/
theorem exec_of_step_next {s t : State} (h : step s = .next t) :
    ∃ w, exec (decodeWord w) s = .next t := by
  cases hf : s.fetch with
  | some w => exact ⟨w, (step_of_fetch hf).symm.trans h⟩
  | none => cases (step_of_refused hf).symm.trans h

/-- Settles O16: the committed pc is even, and memory is unchanged or stored to. -/
theorem stepKeepsInvariant : Obligations.StepKeepsInvariant := by
  intro s t ⟨hpc, hmem⟩ h
  obtain ⟨w, hexec⟩ := exec_of_step_next h
  have himm : ∀ rd imm, decodeWord w = .jal rd imm → imm[0] = false := fun _ _ hjal =>
    decodeWord_jal_imm hjal ▸ immJ_even w
  refine ⟨?_, exec_next_mem_wf hmem hexec⟩
  rw [exec_next_pc hexec]
  exact dnpcOf_even hpc himm

end Sys2Proof.Machine
end

section
/-!
PROOF. No step writes the two parameters (20_memory.md R39, D13): an instruction changes registers, memory and
the pc alone, and a raised result leaves the state as it was, or with `pc + 4` committed.
-/

namespace Sys2Proof.Machine

theorem raise_left {c : Cause} {s : State} {f : Fault} (h : raise c s = .fault f) :
    f.left = s ∨ f.left = s.setPc s.snpc := by
  cases c with
  | hostTrap code => cases h; exact .inr rfl
  | decodeFault => cases h; exact .inr rfl
  | memoryFault a => cases h; exact .inl rfl

theorem raise_of_exec_fault {i : Instr} {s : State} {f : Fault} (h : exec i s = .fault f) :
    ∃ c, raise c s = .fault f := by
  rcases exec_cases i s with ⟨v, d, -, hwrite⟩ | ⟨p, v, -, -, hstore⟩ | ⟨c, hraise⟩
  · cases hwrite.symm.trans h
  · cases hstore.symm.trans h
  · exact ⟨c, hraise.symm.trans h⟩

theorem raise_of_step_fault {s : State} {f : Fault} (h : step s = .fault f) :
    ∃ c, raise c s = .fault f := by
  cases hf : s.fetch with
  | some w => exact raise_of_exec_fault ((step_of_fetch hf).symm.trans h)
  | none => exact ⟨.memoryFault s.pc, (step_of_refused hf).symm.trans h⟩

theorem exec_next_sameParameters {i : Instr} {s t : State} (h : exec i s = .next t) :
    SameParameters s t := by
  rcases exec_cases i s with ⟨v, d, -, hwrite⟩ | ⟨p, v, -, -, hstore⟩ | ⟨c, hraise⟩
  · cases hwrite.symm.trans h
    exact ⟨writeReg_admits _ _ _, writeReg_trapArgReg _ _ _⟩
  · cases hstore.symm.trans h
    exact ⟨rfl, rfl⟩
  · exact absurd (hraise.symm.trans h) (raise_ne_next c s t)

theorem step_fault_sameParameters {s : State} {f : Fault} (h : step s = .fault f) :
    SameParameters s f.left := by
  obtain ⟨c, hraise⟩ := raise_of_step_fault h
  rcases raise_left hraise with hleft | hleft <;> rw [hleft]
  · exact ⟨rfl, rfl⟩
  · exact ⟨rfl, rfl⟩

/-- Settles O17: by what an instruction that continues writes, and by the state a raised result leaves. -/
theorem stepKeepsParameters : Obligations.StepKeepsParameters := by
  refine ⟨fun s t h => ?_, fun _ _ => step_fault_sameParameters⟩
  obtain ⟨w, hexec⟩ := exec_of_step_next h
  exact exec_next_sameParameters hexec

end Sys2Proof.Machine
end

section
/-!
PROOF. Reading back a stored word (20_memory.md R32 to R34, D3). An access of `n` bytes, `k` bytes into the word,
reads the bytes the store put there, and side by side they are bits 8k to 8(k+n)-1 of the value.
-/

namespace Sys2Proof.Machine

/-- Bytes of one access are addressed from its start, across the wrap (R38). -/
theorem byteAddr_add_ofNat (a : Word) (k i : Nat) :
    byteAddr (a + BitVec.ofNat 32 k) i = byteAddr a (k + i) := by
  rw [byteAddr, byteAddr, BitVec.add_assoc, BitVec.ofNat_add_ofNat]

theorem get_write_word_offset {m : Memory} (hm : m.wf) (a v : Word) {k i : Nat} (hi : k + i < 4) :
    (m.write a .word v).get (byteAddr (a + BitVec.ofNat 32 k) i) = v.extractLsb' (8 * k + 8 * i) 8 := by
  rw [byteAddr_add_ofNat, get_write_same hm a .word v hi, Nat.mul_add]

/-- Little-endian order (R34): the piece `k` bytes into a stored word is its bits from 8k on. -/
theorem read_write_word_piece {m : Memory} (hm : m.wf) (a v : Word) {k : Nat} {n : Width}
    (hk : k + n.bytes ≤ 4) :
    (m.write a .word v).read (a + BitVec.ofNat 32 k) n =
      (v.extractLsb' (8 * k) (8 * n.bytes)).setWidth 32 := by
  have hget : ∀ i < n.bytes, (m.write a .word v).get (byteAddr (a + BitVec.ofNat 32 k) i) =
      v.extractLsb' (8 * k + 8 * i) 8 := fun i hi => get_write_word_offset hm a v (by omega)
  cases n with
  | byte => exact congrArg (BitVec.setWidth 32) (hget 0 (by decide))
  | half =>
    rw [Memory.read, hget 0 (by decide), hget 1 (by decide)]
    simp (disch := omega) only [BitVec.extractLsb'_append_extractLsb'_eq_extractLsb']
    rfl
  | word =>
    rw [Memory.read, hget 0 (by decide), hget 1 (by decide), hget 2 (by decide), hget 3 (by decide)]
    simp (disch := omega) only [BitVec.extractLsb'_append_extractLsb'_eq_extractLsb']
    exact (BitVec.setWidth_eq _).symm

/-- The whole word (R34, R41). -/
theorem read_write_word {m : Memory} (hm : m.wf) (a v : Word) : (m.write a .word v).read a .word = v := by
  have h := read_write_word_piece hm a v (k := 0) (n := .word) (by decide)
  simpa [Width.bytes] using h

theorem setWidth_ushiftRight (v : Word) (start len : Nat) :
    (v >>> start).setWidth len = v.extractLsb' start len := by
  ext i hi
  simp

theorem setWidth_extractLsb'_eq_mask (v : Word) (start len : Nat) :
    (v.extractLsb' start len).setWidth 32 = (v >>> start) &&& BitVec.ofNat 32 (2 ^ len - 1) := by
  apply BitVec.eq_of_getLsbD_eq
  intro i hi
  have hmask : (BitVec.ofNat 32 (2 ^ len - 1)).getLsbD i = decide (i < len) := by
    rw [BitVec.getLsbD_ofNat, Nat.testBit_two_pow_sub_one, decide_eq_true hi, Bool.true_and]
  rw [BitVec.getLsbD_and, hmask]
  simp [hi, Bool.and_comm]

end Sys2Proof.Machine
end

section
/-!
PROOF. What the loads after a stored word write (20_memory.md R34, R41).
-/

namespace Sys2Proof.Machine
open Sys2Proof.Claims

theorem writesOnly_writeReg (s : State) (rd : RegIndex) (v d : Word) :
    WritesOnly s ((s.writeReg rd v).setPc d) rd v d := by
  refine ⟨rfl, readReg_writeReg_same s v, readReg_zero _, fun r hr => ?_, fun a => ?_, ?_⟩
  · exact readReg_writeReg_other s v (List.ne_of_not_mem_cons hr)
  · simp [State.byteAt]
  · simp [SameParameters]

/-- An admitted load computes the extended value it reads (R110 to R114). -/
theorem computes_of_loadInto {i : Instr} {s : State} {rd : RegIndex} {a : Word} {n : Width} {ext : Word → Word}
    (hexec : exec i s = loadInto rd a n ext s) (hadmit : mapAdmits s.admits a n .read = true) :
    Computes i s rd (ext (s.mem.read a n)) := by
  rcases loadInto_cases rd a n ext s with ⟨-, hnext⟩ | ⟨hrefused, -⟩
  · exact ⟨_, hexec.trans hnext, writesOnly_writeReg s rd _ _⟩
  · exact absurd (hadmit.symm.trans hrefused) (by decide)

theorem storeTo_next_mem {a v : Word} {n : Width} {s t : State} (h : storeTo a n v s = .next t) :
    t.mem = s.mem.write a n v := by
  rcases storeTo_cases a n v s with ⟨-, hnext⟩ | ⟨-, hfault⟩
  · cases hnext.symm.trans h; rfl
  · cases hfault.symm.trans h

theorem exec_sw_next_mem {rs1 rs2 : RegIndex} {imm : Word} {s t : State} (h : exec (.sw rs1 rs2 imm) s = .next t) :
    t.mem = s.mem.write (effAddr s rs1 imm) .word (s.readReg rs2) :=
  storeTo_next_mem h

/-- A load of the piece `k` bytes into the word a `sw` stored computes the extended bits from 8k on. -/
theorem computes_load_of_sw {rs1 rs2 rd : RegIndex} {imm a : Word} {s t : State} {i : Instr} {n : Width}
    {ext : Word → Word} {k : Nat} (hm : s.mem.wf) (hsw : exec (.sw rs1 rs2 imm) s = .next t)
    (hk : k + n.bytes ≤ 4) (ha : a = effAddr s rs1 imm + BitVec.ofNat 32 k)
    (hadmit : mapAdmits t.admits a n .read = true) (hexec : exec i t = loadInto rd a n ext t) :
    Computes i t rd (ext (((s.readReg rs2).extractLsb' (8 * k) (8 * n.bytes)).setWidth 32)) := by
  have hread : t.mem.read a n = ((s.readReg rs2).extractLsb' (8 * k) (8 * n.bytes)).setWidth 32 := by
    rw [exec_sw_next_mem hsw, ha, read_write_word_piece hm _ _ hk]
  exact hread ▸ computes_of_loadInto hexec hadmit

theorem extSign16_setWidth (h : BitVec 16) : extSign16 (h.setWidth 32) = h.signExtend 32 := by
  rw [extSign16, BitVec.setWidth_setWidth_of_le _ (by decide), BitVec.setWidth_eq]

/-- Settles O39: each load reads its piece of the stored word; what is left is how the piece is extended. -/
theorem storedWordReadsBackInPieces : Obligations.StoredWordReadsBackInPieces := by
  intro rs1 rs2 rd base imm off s t hm hsw
  refine ⟨fun ha hadmit => ?_, fun k hk ha hadmit => ?_, fun k hk ha hadmit => ?_⟩
  · have hlw := computes_load_of_sw (i := .lw rd base off) (k := 0) hm hsw (by decide)
      (ha.trans (BitVec.add_zero _).symm) hadmit rfl
    simpa [extZero, Width.bytes] using hlw
  · have hpiece : k + Width.half.bytes ≤ 4 := Nat.add_le_add_right (Nat.le_of_lt_succ hk) 2
    have hlhu := computes_load_of_sw (i := .lhu rd base off) hm hsw hpiece ha hadmit rfl
    have hlh := computes_load_of_sw (i := .lh rd base off) hm hsw hpiece ha hadmit rfl
    rw [extZero, setWidth_extractLsb'_eq_mask] at hlhu
    rw [setWidth_ushiftRight]
    exact ⟨hlhu, extSign16_setWidth _ ▸ hlh⟩
  · have hlbu := computes_load_of_sw (i := .lbu rd base off) hm hsw (Nat.succ_le_of_lt hk) ha hadmit rfl
    rwa [extZero, setWidth_extractLsb'_eq_mask] at hlbu

/-- Settles O40: the fetch reads the bytes the store wrote. -/
theorem storedWordIsExecutedNext : Obligations.StoredWordIsExecutedNext := by
  intro rs1 rs2 imm s t hm hsw hpc hadmit
  have hread : t.mem.read t.pc .word = s.readReg rs2 := by
    rw [exec_sw_next_mem hsw, ← hpc, read_write_word hm]
  exact step_of_fetch ((fetch_admitted hadmit).trans (congrArg some hread))

end Sys2Proof.Machine
end

section
/-!
PROOF. A placed word (log 9): its fetch is admitted and reads the word, and the bytes it is laid out in decode to
the instruction of the word.
-/

namespace Sys2Proof

/-- Laying a word out in bytes and reading it back is the identity (R34). -/
theorem wordOfBytes_extractLsb' (w : Word) :
    wordOfBytes (w.extractLsb' 0 8) (w.extractLsb' 8 8) (w.extractLsb' 16 8) (w.extractLsb' 24 8) = w := by
  simp (disch := omega) only [wordOfBytes, BitVec.extractLsb'_append_extractLsb'_eq_extractLsb']
  exact BitVec.extractLsb'_eq_self

theorem decode_bytesOfWord (w : Word) (rest : List Byte) :
    decode (bytesOfWord w ++ rest) = .ok (decodeWord w, rest) := by
  simp [bytesOfWord, decode, wordOfBytes_extractLsb']

theorem decodeTableWord_eq (nbits w : Nat) :
    decodeTableWord nbits w = some (decodeWord (tableWord nbits w)) := by
  have hdecode := decode_bytesOfWord (tableWord nbits w) []
  rw [List.append_nil] at hdecode
  rw [decodeTableWord, hdecode]

end Sys2Proof

namespace Sys2Proof.Machine

theorem mapAdmits_admitFetch (m : AddressMap) (pc : Word) :
    mapAdmits (admitFetch m pc) pc .word .fetch = true := by
  unfold admitFetch
  split
  · assumption
  · have hgrant := (grantAdmits_isolatingGrant pc pc .word .word .fetch .fetch).mpr rfl
    exact List.any_eq_true.mpr ⟨_, List.mem_cons_self, hgrant⟩

theorem fetch_placeWord {s : State} (hm : s.mem.wf) (w : Word) : (s.placeWord w).fetch = some w := by
  rw [fetch_admitted (mapAdmits_admitFetch s.admits s.pc)]
  exact congrArg some (read_write_word hm s.pc w)

/-- A store leaves every byte outside its access alone (R33). -/
theorem byteAt_write_of_not_inAccess {s t : State} {base v a : Word} {n : Width}
    (ht : t.mem = s.mem.write base n v) (ha : ¬ InAccess base n a) : t.byteAt a = s.byteAt a := by
  rw [State.byteAt, ht]
  exact get_write_other _ _ _ _ fun i hi heq => ha ⟨i, hi, BitVec.eq_of_toNat_eq heq⟩

/-- Settles O49: the placed word is fetched, and placing it wrote no other byte. -/
theorem placedWordRuns : Obligations.PlacedWordRuns := by
  intro s nbits w hm
  exact ⟨decodeTableWord_eq nbits w, step_of_fetch (fetch_placeWord hm _), rfl, rfl,
    fun _ => byteAt_write_of_not_inAccess rfl⟩

end Sys2Proof.Machine
end

section
/-!
PROOF. The decoder's table (30_encoding.md R59 to R61, 40_decode_and_step.md R85). Two rows that match one word agree
on the bits both fix, and no two of the 39 defined rows do, so a defined row that matches is the row the scan selects.
A word's instruction is the one its row makes of it, and it is `inv` exactly when no defined row matches.
-/

namespace Sys2Proof
open Sys2Proof.Laws.MatchesOwnRow (rowOf)

/-! ### Rows -/

theorem definedRows_mnemonic_ne_inv : ∀ e ∈ definedRows, e.mnemonic ≠ .inv := by decide

/-- Two different defined rows differ at a bit that both fix (R61, D16). -/
theorem definedRows_eq_of_agree :
    ∀ e ∈ definedRows, ∀ e' ∈ definedRows, e.expected &&& e'.mask = e'.expected &&& e.mask → e = e' := by decide

/-- Settles O6: the bits that both rows fix are the word's, and two different rows differ there. -/
theorem definedRowsDisjoint : Obligations.DefinedRowsDisjoint := by
  intro w e e' he he' h h'
  apply definedRows_eq_of_agree e he e' he'
  rw [← h, ← h', BitVec.and_assoc, BitVec.and_assoc, BitVec.and_comm e.mask]

/-! ### The scan -/

theorem scan_matches (w : Word) (rows : List PatternEntry) :
    w &&& (scan w rows).mask = (scan w rows).expected := by
  induction rows with
  | nil => exact BitVec.and_zero
  | cons e rest ih =>
    unfold scan
    split
    · exact eq_of_beq ‹_›
    · exact ih

theorem scan_append_mem {w : Word} {e : PatternEntry} {rows : List PatternEntry} (rest : List PatternEntry)
    (he : e ∈ rows) (h : w &&& e.mask = e.expected) : scan w (rows ++ rest) ∈ rows := by
  induction rows with
  | nil => contradiction
  | cons d rows ih =>
    rw [List.cons_append, scan]
    split
    · exact List.mem_cons_self
    next hd =>
      rcases List.mem_cons.mp he with rfl | he
      · exact absurd (beq_iff_eq.mpr h) hd
      · exact List.mem_cons_of_mem d (ih he)

theorem matchWord_eq_of_mem {w : Word} {e : PatternEntry} (he : e ∈ definedRows)
    (h : w &&& e.mask = e.expected) : matchWord w = e :=
  definedRowsDisjoint w _ e (scan_append_mem [catchAll] he h) he (scan_matches w table) h

theorem matchWord_eq_catchAll {w : Word} (h : ∀ e ∈ definedRows, w &&& e.mask ≠ e.expected) :
    matchWord w = catchAll := by
  rcases List.mem_append.mp (matchWord_mem_table w) with hdefined | hlast
  · exact absurd (scan_matches w table) (h _ hdefined)
  · exact List.mem_singleton.mp hlast

/-- Settles O7: a defined row that matches is the one selected, and the catch-all is selected when none does. -/
theorem invalidIffNoDefinedRow : Obligations.InvalidIffNoDefinedRow := by
  intro w
  constructor
  · intro hinv e he h
    have hmnemonic := decodeWord_mnemonic w
    rw [hinv, matchWord_eq_of_mem he h] at hmnemonic
    exact definedRows_mnemonic_ne_inv e he hmnemonic.symm
  · intro h
    rw [decodeWord, matchWord_eq_catchAll h]
    rfl

/-! ### The row of a mnemonic -/

/-- The word has the bits that the row of `m` fixes (R59). -/
def InRow (m : Mnemonic) (w : Word) : Prop :=
  w &&& (rowOf m).mask = (rowOf m).expected

/-- What the row of `m` makes of a word: the operands of the row's format (R87, R88). -/
def instrOfRow (m : Mnemonic) (w : Word) : Instr :=
  assemble m (extract (rowOf m).format w)

theorem mnemonic_eq_inv_iff {i : Instr} : i.mnemonic = .inv ↔ i = .inv := by
  cases i <;> simp [Instr.mnemonic]

theorem rowOf_mnemonic (m : Mnemonic) : (rowOf m).mnemonic = m := by
  cases m <;> rfl

theorem rowOf_mnemonic_of_mem : ∀ e ∈ table, rowOf e.mnemonic = e := by decide

theorem rowOf_mem_definedRows {m : Mnemonic} (hm : m ≠ .inv) : rowOf m ∈ definedRows := by
  cases m
  case inv => contradiction
  all_goals decide

theorem rowOf_decodeWord (w : Word) : rowOf (decodeWord w).mnemonic = matchWord w := by
  rw [decodeWord_mnemonic, rowOf_mnemonic_of_mem _ (matchWord_mem_table w)]

theorem inRow_decodeWord (w : Word) : InRow (decodeWord w).mnemonic w := by
  rw [InRow, rowOf_decodeWord]
  exact scan_matches w table

theorem decodeWord_eq_instrOfRow (w : Word) : decodeWord w = instrOfRow (decodeWord w).mnemonic w := by
  rw [instrOfRow, rowOf_decodeWord, decodeWord_mnemonic]
  rfl

theorem decodeWord_of_inRow {m : Mnemonic} {w : Word} (h : InRow m w) (hm : m ≠ .inv) :
    decodeWord w = instrOfRow m w := by
  rw [decodeWord, matchWord_eq_of_mem (rowOf_mem_definedRows hm) h, rowOf_mnemonic]
  rfl

end Sys2Proof
end

section
/-!
PROOF. The immediates (30_encoding.md R53 to R57). Each is the sign extension of the word's parts joined, so a bit of
it is a bit of the part it falls in, or the word's bit 31 above them; its range is that of the joined width.
-/

namespace Sys2Proof

/-! ### Bits -/

theorem immI_getLsbD (w : Word) {k : Nat} (hk : k < 32) :
    (immI w).getLsbD k = if k < 11 then w.getLsbD (k + 20) else w.getLsbD 31 := by
  simp only [immI, BitVec.getLsbD_signExtend, BitVec.msb_extractLsb', BitVec.getLsbD_extractLsb']
  grind

theorem immS_getLsbD (w : Word) {k : Nat} (hk : k < 32) :
    (immS w).getLsbD k =
      if k < 5 then w.getLsbD (k + 7) else if k < 11 then w.getLsbD (k + 20) else w.getLsbD 31 := by
  simp only [immS, BitVec.getLsbD_signExtend, BitVec.msb_append, BitVec.msb_extractLsb', BitVec.getLsbD_append,
    BitVec.getLsbD_extractLsb']
  grind

theorem immB_getLsbD (w : Word) {k : Nat} (hk : k < 32) :
    (immB w).getLsbD k =
      if k < 1 then false else if k < 5 then w.getLsbD (k + 7) else if k < 11 then w.getLsbD (k + 20)
      else if k < 12 then w.getLsbD 7 else w.getLsbD 31 := by
  simp only [immB, BitVec.getLsbD_signExtend, BitVec.msb_append, BitVec.msb_extractLsb', BitVec.getLsbD_append,
    BitVec.getLsbD_extractLsb']
  grind

theorem immJ_getLsbD (w : Word) {k : Nat} (hk : k < 32) :
    (immJ w).getLsbD k =
      if k < 1 then false else if k < 11 then w.getLsbD (k + 20) else if k < 12 then w.getLsbD 20
      else if k < 20 then w.getLsbD k else w.getLsbD 31 := by
  simp only [immJ, BitVec.getLsbD_signExtend, BitVec.msb_append, BitVec.msb_extractLsb', BitVec.getLsbD_append,
    BitVec.getLsbD_extractLsb']
  grind

theorem immU_getLsbD (w : Word) {k : Nat} (hk : k < 32) :
    (immU w).getLsbD k = if k < 12 then false else w.getLsbD k := by
  simp only [immU, BitVec.getLsbD_append, BitVec.getLsbD_extractLsb', BitVec.getLsbD_zero]
  grind

theorem immU_eq_and (w : Word) : immU w = w &&& 0xFFFFF000#32 := by
  have hmask : (0xFFFFF000#32 : Word) = BitVec.allOnes 20 ++ 0#12 := rfl
  apply BitVec.eq_of_getLsbD_eq
  intro k hk
  simp only [immU_getLsbD w hk, hmask, BitVec.getLsbD_and, BitVec.getLsbD_append, BitVec.getLsbD_allOnes,
    BitVec.getLsbD_zero]
  grind

/-! ### Ranges -/

theorem toInt_signExtend_range {n : Nat} (x : BitVec n) (hn : n ≤ 32) :
    -2 ^ (n - 1) ≤ (x.signExtend 32).toInt ∧ (x.signExtend 32).toInt < 2 ^ (n - 1) := by
  rw [BitVec.toInt_signExtend_of_le hn]
  exact ⟨x.le_toInt, BitVec.toInt_lt⟩

/-- A 0 bit below a signed value doubles it (R55, R57). -/
theorem toInt_signExtend_append_zero {n : Nat} (x : BitVec n) (h0 : n ≠ 0) (hn : n + 1 ≤ 32) :
    ((x ++ 0#1).signExtend 32).toInt = 2 * x.toInt := by
  rw [BitVec.toInt_signExtend_of_le hn, BitVec.toInt_append]
  simp [h0]

theorem immB_toInt (w : Word) : ∃ t : Int, (immB w).toInt = 2 * t ∧ -2048 ≤ t ∧ t < 2048 :=
  ⟨_, toInt_signExtend_append_zero _ (by decide) (by decide), BitVec.le_toInt _, BitVec.toInt_lt⟩

theorem immJ_toInt (w : Word) : ∃ t : Int, (immJ w).toInt = 2 * t ∧ -524288 ≤ t ∧ t < 524288 :=
  ⟨_, toInt_signExtend_append_zero _ (by decide) (by decide), BitVec.le_toInt _, BitVec.toInt_lt⟩

/-! ### The statements -/

/-- Settles O9: bits from the parts, ranges from the 12-bit width, the examples by evaluation. -/
theorem immediatesIS : Obligations.ImmediatesIS := by
  refine ⟨fun w => ⟨fun k => immI_getLsbD w, ?_⟩, fun w => ⟨fun k => immS_getLsbD w, ?_⟩, by decide, by decide⟩
  · obtain ⟨hlow, hhigh⟩ := toInt_signExtend_range (w.extractLsb' 20 12) (by decide)
    exact ⟨hlow, Int.le_of_lt_add_one hhigh⟩
  · obtain ⟨hlow, hhigh⟩ := toInt_signExtend_range (w.extractLsb' 25 7 ++ w.extractLsb' 7 5) (by decide)
    exact ⟨hlow, Int.le_of_lt_add_one hhigh⟩

/-- Settles O10: bits from the parts, evenness and ranges from the 0 bit below the signed rest. -/
theorem immediatesBJ : Obligations.ImmediatesBJ := by
  refine ⟨fun w => ⟨fun k => immB_getLsbD w, ?_⟩, fun w => ⟨fun k => immJ_getLsbD w, ?_⟩, by decide, by decide⟩
  · obtain ⟨t, ht, hlow, hhigh⟩ := immB_toInt w
    omega
  · obtain ⟨t, ht, hlow, hhigh⟩ := immJ_toInt w
    omega

/-- Settles O11: the bits are those of the mask, the examples by evaluation. -/
theorem immediateU : Obligations.ImmediateU :=
  ⟨fun w => ⟨immU_eq_and w, fun _ => immU_getLsbD w⟩, by decide⟩

end Sys2Proof
end

section
/-!
PROOF. Fields and layouts (30_encoding.md R51, R52). Laying a word's own fields out in a format gives the word back,
and the fields of a laid-out word are the operands it was laid out from.
-/

namespace Sys2Proof
open Sys2Proof.Claims

theorem extractLsb'_signExtend {n v start len : Nat} (x : BitVec n) (hn : start + len ≤ n) (hv : start + len ≤ v) :
    (x.signExtend v).extractLsb' start len = x.extractLsb' start len := by
  apply BitVec.eq_of_getLsbD_eq
  intro i hi
  have hin : start + i < n := by omega
  have hiv : start + i < v := by omega
  simp only [BitVec.getLsbD_extractLsb', BitVec.getLsbD_signExtend, hin, hiv, decide_true, Bool.true_and, if_true]

theorem extractLsb'_extractLsb' {n len len' start start' : Nat} (x : BitVec n) (h : start' + len' ≤ len) :
    (x.extractLsb' start len).extractLsb' start' len' = x.extractLsb' (start + start') len' := by
  apply BitVec.eq_of_getLsbD_eq
  intro i hi
  have hlen : start' + i < len := by omega
  simp only [BitVec.getLsbD_extractLsb', hlen, decide_true, Bool.true_and, Nat.add_assoc]

/-! ### A word from its fields -/

section
variable {w : Word} {f7 : BitVec 7} {f3 : BitVec 3} {op : BitVec 7}

theorem encR_of_fields (h7 : funct7 w = f7) (h3 : funct3 w = f3) (hop : opcode w = op) :
    encR f7 f3 op (fieldRd w) (fieldRs1 w) (fieldRs2 w) = w := by
  subst h7 h3 hop
  simp (disch := omega) only [encR, funct7, funct3, opcode, fieldRd, fieldRs1, fieldRs2,
    BitVec.extractLsb'_append_extractLsb'_eq_extractLsb']
  exact BitVec.extractLsb'_eq_self

theorem encI_of_fields (h3 : funct3 w = f3) (hop : opcode w = op) :
    encI f3 op (fieldRd w) (fieldRs1 w) (immI w) = w := by
  subst h3 hop
  simp (disch := omega) only [encI, funct3, opcode, fieldRd, fieldRs1, immI, extractLsb'_signExtend,
    BitVec.extractLsb'_append_extractLsb'_eq_extractLsb', BitVec.extractLsb'_eq_self]

theorem encShift_of_fields (h7 : funct7 w = f7) (h3 : funct3 w = f3) (hop : opcode w = op) :
    encShift f7 f3 op (fieldRd w) (fieldRs1 w) (immI w) = w := by
  have hamount : (immI w).extractLsb' 0 5 = fieldRs2 w := by
    rw [immI, extractLsb'_signExtend _ (by decide) (by decide), extractLsb'_extractLsb' _ (by decide)]
    rfl
  rw [encShift, hamount]
  exact encR_of_fields h7 h3 hop

theorem encS_of_fields (h3 : funct3 w = f3) (hop : opcode w = op) :
    encS f3 op (fieldRs1 w) (fieldRs2 w) (immS w) = w := by
  subst h3 hop
  simp (disch := omega) only [encS, funct3, opcode, fieldRs1, fieldRs2, immS, extractLsb'_signExtend,
    BitVec.extractLsb'_append_eq_of_le, BitVec.extractLsb'_append_eq_of_add_le, Nat.sub_self,
    BitVec.extractLsb'_append_extractLsb'_eq_extractLsb', BitVec.extractLsb'_eq_self]

theorem encB_of_fields (h3 : funct3 w = f3) (hop : opcode w = op) :
    encB f3 op (fieldRs1 w) (fieldRs2 w) (immB w) = w := by
  subst h3 hop
  simp (disch := omega) only [encB, funct3, opcode, fieldRs1, fieldRs2, immB, extractLsb'_signExtend,
    BitVec.extractLsb'_append_eq_of_le, BitVec.extractLsb'_append_eq_of_add_le, Nat.reduceSub,
    BitVec.extractLsb'_append_extractLsb'_eq_extractLsb', BitVec.extractLsb'_eq_self]

theorem encU_of_fields (hop : opcode w = op) : encU op (fieldRd w) (immU w) = w := by
  subst hop
  simp (disch := omega) only [encU, opcode, fieldRd, immU, BitVec.extractLsb'_append_eq_of_le, Nat.sub_self,
    BitVec.extractLsb'_append_extractLsb'_eq_extractLsb', BitVec.extractLsb'_eq_self]

theorem encJ_of_fields (hop : opcode w = op) : encJ op (fieldRd w) (immJ w) = w := by
  subst hop
  simp (disch := omega) only [encJ, opcode, fieldRd, immJ, extractLsb'_signExtend,
    BitVec.extractLsb'_append_eq_of_le, BitVec.extractLsb'_append_eq_of_add_le, Nat.reduceSub,
    BitVec.extractLsb'_append_extractLsb'_eq_extractLsb', BitVec.extractLsb'_eq_self]

end

end Sys2Proof
end

section
/-!
PROOF. Operands (30_encoding.md R53 to R57, R63). An extracted immediate is well formed, and extracting a laid-out
word gives the well-formed operands it was laid out from; an index a format does not use is whatever stands there.
-/

namespace Sys2Proof
open Sys2Proof.Claims

/-! ### Well-formed immediates -/

theorem setWidth_signExtend {n : Nat} (x : BitVec n) (hn : n ≤ 32) : (x.signExtend 32).setWidth n = x := by
  rw [BitVec.setWidth_eq_extractLsb' hn, extractLsb'_signExtend _ (by omega) (by omega), BitVec.extractLsb'_eq_self]

theorem wfImm12_signExtend (x : BitVec 12) : wfImm12 (x.signExtend 32) = true := by
  rw [wfImm12, setWidth_signExtend x (by decide), beq_self_eq_true]

theorem wfImm12_immI (w : Word) : wfImm12 (immI w) = true := wfImm12_signExtend _

theorem wfImm12_immS (w : Word) : wfImm12 (immS w) = true := wfImm12_signExtend _

theorem immB_even (w : Word) : (immB w)[0] = false := immB_getLsbD w (by decide)

theorem wfImm13_immB (w : Word) : wfImm13 (immB w) = true := by
  rw [wfImm13, immB_even, immB, setWidth_signExtend _ (by decide), beq_self_eq_true]
  rfl

theorem wfImm21_immJ (w : Word) : wfImm21 (immJ w) = true := by
  rw [wfImm21, immJ_even, immJ, setWidth_signExtend _ (by decide), beq_self_eq_true]
  rfl

theorem wfImm20_immU (w : Word) : wfImm20 (immU w) = true := by
  rw [wfImm20, immU, BitVec.setWidth_append_eq_right]
  rfl

/-- The immediate of a shift is not negative, since every shift row fixes bit 31 to 0 (R63). -/
theorem signExtend_shift {top : BitVec 7} (hmsb : top.msb = false) (amount : BitVec 5) :
    (top ++ amount : BitVec 12).signExtend 32 = (top ++ amount : BitVec 12).setWidth 32 := by
  apply BitVec.signExtend_eq_setWidth_of_msb_false
  rw [BitVec.msb_append]
  exact hmsb

theorem wfShift_immI {w : Word} {top : BitVec 7} (h7 : funct7 w = top) (hmsb : top.msb = false) :
    wfShift top (immI w) = true := by
  have hparts : w.extractLsb' 20 12 = top ++ w.extractLsb' 20 5 := by
    rw [← h7]
    exact (BitVec.extractLsb'_append_extractLsb'_eq_extractLsb' (start₁ := 20) (len₁ := 5) rfl).symm
  rw [immI, hparts, signExtend_shift hmsb, wfShift, BitVec.setWidth_setWidth_of_le _ (by decide),
    BitVec.setWidth_append_eq_right]
  exact beq_self_eq_true _

/-! ### What a well-formed immediate is the extension of -/

theorem signExtend_of_wfImm12 {imm : Word} (h : wfImm12 imm = true) :
    (imm.extractLsb' 0 12).signExtend 32 = imm := by
  rw [← BitVec.setWidth_eq_extractLsb' (by decide)]
  exact eq_of_beq h

/-- What `wfImm13` and `wfImm21` say, for their widths. -/
theorem signExtend_of_wf_even {n : Nat} {imm : Word} (hn : n ≤ 32)
    (h : ((imm.setWidth n).signExtend 32 == imm && !imm[0]) = true) :
    (imm.extractLsb' 0 n).signExtend 32 = imm ∧ imm.extractLsb' 0 1 = 0#1 := by
  obtain ⟨himm, heven⟩ := (Bool.and_eq_true _ _).mp h
  rw [← BitVec.setWidth_eq_extractLsb' hn]
  refine ⟨eq_of_beq himm, BitVec.eq_of_getLsbD_eq fun i hi => ?_⟩
  obtain rfl : i = 0 := by omega
  simpa using heven

/-! ### Operands from a laid-out word -/

section
variable {f7 : BitVec 7} {f3 : BitVec 3} {op : BitVec 7} {rd rs1 rs2 : RegIndex} {imm : Word}

theorem extract_encR : extract .r (encR f7 f3 op rd rs1 rs2) = ⟨rd, rs1, rs2, 0⟩ := by
  simp (disch := omega) only [extract, encR, immOf, fieldRd, fieldRs1, fieldRs2, Nat.reduceSub,
    BitVec.extractLsb'_append_eq_of_le, BitVec.extractLsb'_append_eq_of_add_le, BitVec.extractLsb'_eq_self]

theorem extract_encI (h : wfImm12 imm = true) :
    extract .i (encI f3 op rd rs1 imm) = ⟨rd, rs1, imm.extractLsb' 0 5, imm⟩ := by
  simp (disch := omega) only [extract, encI, immOf, immI, fieldRd, fieldRs1, fieldRs2, Nat.reduceSub,
    BitVec.extractLsb'_append_eq_of_le, BitVec.extractLsb'_append_eq_of_add_le, BitVec.extractLsb'_eq_self,
    extractLsb'_extractLsb', signExtend_of_wfImm12 h]

theorem extract_encShift (h : wfShift f7 imm = true) (hmsb : f7.msb = false) :
    extract .i (encShift f7 f3 op rd rs1 imm) = ⟨rd, rs1, imm.extractLsb' 0 5, imm⟩ := by
  have himm : (f7 ++ imm.extractLsb' 0 5 : BitVec 12).signExtend 32 = imm := by
    rw [← BitVec.setWidth_eq_extractLsb' (by decide), signExtend_shift hmsb]
    exact eq_of_beq h
  simp (disch := omega) only [extract, encShift, immOf, immI, fieldRd, fieldRs1, fieldRs2, Nat.reduceSub,
    BitVec.extractLsb'_append_eq_of_le, BitVec.extractLsb'_append_eq_of_add_le, BitVec.extractLsb'_eq_self, himm]

theorem extract_encS (h : wfImm12 imm = true) :
    extract .s (encS f3 op rs1 rs2 imm) = ⟨imm.extractLsb' 0 5, rs1, rs2, imm⟩ := by
  simp (disch := omega) only [extract, encS, immOf, immS, fieldRd, fieldRs1, fieldRs2, Nat.reduceSub,
    BitVec.extractLsb'_append_eq_of_le, BitVec.extractLsb'_append_eq_of_add_le, BitVec.extractLsb'_eq_self,
    BitVec.extractLsb'_append_extractLsb'_eq_extractLsb', signExtend_of_wfImm12 h]

theorem extract_encB (h : wfImm13 imm = true) :
    extract .b (encB f3 op rs1 rs2 imm) = ⟨fieldRd (encB f3 op rs1 rs2 imm), rs1, rs2, imm⟩ := by
  obtain ⟨himm, hzero⟩ := signExtend_of_wf_even (n := 13) (by decide) h
  simp (disch := omega) only [extract, encB, immOf, immB, fieldRs1, fieldRs2, Nat.reduceSub, ← hzero,
    BitVec.extractLsb'_append_eq_of_le, BitVec.extractLsb'_append_eq_of_add_le, BitVec.extractLsb'_eq_self,
    BitVec.extractLsb'_append_extractLsb'_eq_extractLsb', himm]

theorem extract_encU (h : wfImm20 imm = true) :
    extract .u (encU op rd imm) = ⟨rd, imm.extractLsb' 15 5, imm.extractLsb' 20 5, imm⟩ := by
  have hzero : imm.extractLsb' 0 12 = 0#12 := by
    rw [← BitVec.setWidth_eq_extractLsb' (by decide)]
    exact eq_of_beq h
  simp (disch := omega) only [extract, encU, immOf, immU, fieldRd, fieldRs1, fieldRs2, Nat.reduceSub, ← hzero,
    BitVec.extractLsb'_append_eq_of_le, BitVec.extractLsb'_append_eq_of_add_le, BitVec.extractLsb'_eq_self,
    extractLsb'_extractLsb', BitVec.extractLsb'_append_extractLsb'_eq_extractLsb']

theorem extract_encJ (h : wfImm21 imm = true) :
    extract .j (encJ op rd imm) = ⟨rd, fieldRs1 (encJ op rd imm), fieldRs2 (encJ op rd imm), imm⟩ := by
  obtain ⟨himm, hzero⟩ := signExtend_of_wf_even (n := 21) (by decide) h
  simp (disch := omega) only [extract, encJ, immOf, immJ, fieldRd, Nat.reduceSub, ← hzero,
    BitVec.extractLsb'_append_eq_of_le, BitVec.extractLsb'_append_eq_of_add_le, BitVec.extractLsb'_eq_self,
    BitVec.extractLsb'_append_extractLsb'_eq_extractLsb', himm]

end

end Sys2Proof
end

section
/-!
PROOF. The opcode map R62 against the table. A defined row that a word is in fixes the fields that the map branches on,
so the map answers what the row makes of the word; and what the map answers, `inv` apart, encodes to the word, so it
is of a row the word is in.
-/

namespace Sys2Proof
open Sys2Proof.Claims Sys2Proof.Laws
open Sys2Proof.Laws.MatchesOwnRow (rowOf)

/-! ### The fields a row fixes -/

theorem extractLsb'_of_mask {w mask expected : Word} {start len : Nat} (h : w &&& mask = expected)
    (hmask : mask.extractLsb' start len = BitVec.allOnes len) :
    w.extractLsb' start len = expected.extractLsb' start len := by
  rw [← h, BitVec.extractLsb'_and, hmask, BitVec.and_allOnes]

section
variable {m : Mnemonic} {w : Word} (h : InRow m w)
include h

theorem opcode_of_inRow (hmask : opcode (rowOf m).mask = BitVec.allOnes 7) :
    opcode w = opcode (rowOf m).expected :=
  extractLsb'_of_mask h hmask

theorem funct3_of_inRow (hmask : funct3 (rowOf m).mask = BitVec.allOnes 3) :
    funct3 w = funct3 (rowOf m).expected :=
  extractLsb'_of_mask h hmask

theorem funct7_of_inRow (hmask : funct7 (rowOf m).mask = BitVec.allOnes 7) :
    funct7 w = funct7 (rowOf m).expected :=
  extractLsb'_of_mask h hmask

end

theorem eq_of_inRow_ebreak {w : Word} (h : InRow .ebreak w) : w = 0x00100073#32 :=
  BitVec.and_allOnes.symm.trans h

/-! ### From a row to the map -/

theorem opcodeMap_of_inRow {m : Mnemonic} {w : Word} (h : InRow m w) (hm : m ≠ .inv) :
    opcodeMap w = instrOfRow m w := by
  have hop := opcode_of_inRow h
  have h3 := funct3_of_inRow h
  have h7 := funct7_of_inRow h
  cases m
  case inv => contradiction
  case ebreak => rw [eq_of_inRow_ebreak h]; rfl
  case lui | auipc | jal => rw [opcodeMap, hop rfl]; rfl
  case jalr => rw [opcodeMap, hop rfl, h3 rfl]; rfl
  case beq | bne | blt | bge => rw [opcodeMap, branchMap, hop rfl, h3 rfl]; rfl
  case lw | lh | lhu | lbu => rw [opcodeMap, loadMap, hop rfl, h3 rfl]; rfl
  case sw | sh | sb => rw [opcodeMap, storeMap, hop rfl, h3 rfl]; rfl
  case addi | andi | xori | sltiu => rw [opcodeMap, immediateMap, hop rfl, h3 rfl]; rfl
  case slli | srli | srai => rw [opcodeMap, immediateMap, hop rfl, h3 rfl, h7 rfl]; rfl
  case add | and | or | xor | sll | srl | slt | sltu => rw [opcodeMap, registerMap, hop rfl, h3 rfl, h7 rfl]; rfl
  case sub | sra => rw [opcodeMap, hop rfl, h3 rfl, h7 rfl]; rfl
  case mul | mulh | div | rem | divu | remu => rw [opcodeMap, mulDivMap, hop rfl, h3 rfl, h7 rfl]; rfl

/-! ### From the map to a row -/

/-- The instruction is `inv` or has the word for its encoding. -/
def InvOrEncodes (i : Instr) (w : Word) : Prop :=
  i = .inv ∨ encodeWord i = w

section
variable {w : Word}

theorem InvOrEncodes.inv : InvOrEncodes .inv w := .inl rfl

theorem InvOrEncodes.ite {c : Prop} [Decidable c] {i j : Instr} (hi : c → encodeWord i = w)
    (hj : InvOrEncodes j w) : InvOrEncodes (if c then i else j) w := by
  split
  · exact .inr (hi ‹_›)
  · exact hj

theorem InvOrEncodes.ite_map {c : Prop} [Decidable c] {i j : Instr} (hi : c → InvOrEncodes i w)
    (hj : InvOrEncodes j w) : InvOrEncodes (if c then i else j) w := by
  split
  · exact hi ‹_›
  · exact hj

theorem branchMap_invOrEncodes (hop : opcode w = 0b1100011#7) : InvOrEncodes (branchMap w) w :=
  .ite (encB_of_fields · hop) <| .ite (encB_of_fields · hop) <| .ite (encB_of_fields · hop) <|
    .ite (encB_of_fields · hop) .inv

theorem loadMap_invOrEncodes (hop : opcode w = 0b0000011#7) : InvOrEncodes (loadMap w) w :=
  .ite (encI_of_fields · hop) <| .ite (encI_of_fields · hop) <| .ite (encI_of_fields · hop) <|
    .ite (encI_of_fields · hop) .inv

theorem storeMap_invOrEncodes (hop : opcode w = 0b0100011#7) : InvOrEncodes (storeMap w) w :=
  .ite (encS_of_fields · hop) <| .ite (encS_of_fields · hop) <| .ite (encS_of_fields · hop) .inv

theorem immediateMap_invOrEncodes (hop : opcode w = 0b0010011#7) : InvOrEncodes (immediateMap w) w :=
  .ite (encI_of_fields · hop) <| .ite (encI_of_fields · hop) <| .ite (encI_of_fields · hop) <|
    .ite (encI_of_fields · hop) <|
    .ite_map (fun h3 => .ite (encShift_of_fields · h3 hop) .inv) <|
    .ite_map (fun h3 => .ite (encShift_of_fields · h3 hop) <| .ite (encShift_of_fields · h3 hop) .inv) .inv

/-- The last branch of the register map has no test: funct3 111 is what the other seven leave. -/
theorem eq_seven_of_ne (f : BitVec 3) (h0 : f ≠ 0b000#3) (h1 : f ≠ 0b001#3) (h2 : f ≠ 0b010#3) (h3 : f ≠ 0b011#3)
    (h4 : f ≠ 0b100#3) (h5 : f ≠ 0b101#3) (h6 : f ≠ 0b110#3) : f = 0b111#3 := by
  bv_omega

theorem registerMap_invOrEncodes (hop : opcode w = 0b0110011#7) (h7 : funct7 w = 0b0000000#7) :
    InvOrEncodes (registerMap w) w := by
  right
  unfold registerMap
  split_ifs with h h h h h h h
  case neg => exact encR_of_fields h7 (eq_seven_of_ne _ ‹_› ‹_› ‹_› ‹_› ‹_› ‹_› ‹_›) hop
  all_goals exact encR_of_fields h7 h hop

theorem mulDivMap_invOrEncodes (hop : opcode w = 0b0110011#7) (h7 : funct7 w = 0b0000001#7) :
    InvOrEncodes (mulDivMap w) w :=
  .ite (encR_of_fields h7 · hop) <| .ite (encR_of_fields h7 · hop) <| .ite (encR_of_fields h7 · hop) <|
    .ite (encR_of_fields h7 · hop) <| .ite (encR_of_fields h7 · hop) <| .ite (encR_of_fields h7 · hop) .inv

theorem opcodeMap_invOrEncodes (w : Word) : InvOrEncodes (opcodeMap w) w :=
  .ite encU_of_fields <| .ite encU_of_fields <| .ite encJ_of_fields <|
    .ite_map (fun hop => .ite (encI_of_fields · hop) .inv) <|
    .ite_map branchMap_invOrEncodes <| .ite_map loadMap_invOrEncodes <| .ite_map storeMap_invOrEncodes <|
    .ite_map immediateMap_invOrEncodes <|
    .ite_map (fun hop => .ite_map (registerMap_invOrEncodes hop) <|
      .ite_map (fun h7 => .ite (encR_of_fields h7 · hop) <| .ite (encR_of_fields h7 · hop) .inv) <|
      .ite_map (mulDivMap_invOrEncodes hop) .inv) <|
    .ite_map (fun _ => .ite Eq.symm .inv) .inv

end

/-- Every encoded instruction has the bits that its row fixes (R52, R60). -/
theorem inRow_encodeWord : (i : Instr) → InRow i.mnemonic (encodeWord i)
  | .lui .. => MatchesOwnRow.lui ..
  | .auipc .. => MatchesOwnRow.auipc ..
  | .lw .. => MatchesOwnRow.lw ..
  | .lh .. => MatchesOwnRow.lh ..
  | .lhu .. => MatchesOwnRow.lhu ..
  | .lbu .. => MatchesOwnRow.lbu ..
  | .sw .. => MatchesOwnRow.sw ..
  | .sh .. => MatchesOwnRow.sh ..
  | .sb .. => MatchesOwnRow.sb ..
  | .addi .. => MatchesOwnRow.addi ..
  | .andi .. => MatchesOwnRow.andi ..
  | .xori .. => MatchesOwnRow.xori ..
  | .slli .. => MatchesOwnRow.slli ..
  | .srli .. => MatchesOwnRow.srli ..
  | .srai .. => MatchesOwnRow.srai ..
  | .sltiu .. => MatchesOwnRow.sltiu ..
  | .add .. => MatchesOwnRow.add ..
  | .sub .. => MatchesOwnRow.sub ..
  | .and .. => MatchesOwnRow.and ..
  | .or .. => MatchesOwnRow.or ..
  | .xor .. => MatchesOwnRow.xor ..
  | .sll .. => MatchesOwnRow.sll ..
  | .srl .. => MatchesOwnRow.srl ..
  | .sra .. => MatchesOwnRow.sra ..
  | .slt .. => MatchesOwnRow.slt ..
  | .sltu .. => MatchesOwnRow.sltu ..
  | .mul .. => MatchesOwnRow.mul ..
  | .mulh .. => MatchesOwnRow.mulh ..
  | .div .. => MatchesOwnRow.div ..
  | .rem .. => MatchesOwnRow.rem ..
  | .divu .. => MatchesOwnRow.divu ..
  | .remu .. => MatchesOwnRow.remu ..
  | .jal .. => MatchesOwnRow.jal ..
  | .jalr .. => MatchesOwnRow.jalr ..
  | .beq .. => MatchesOwnRow.beq ..
  | .bne .. => MatchesOwnRow.bne ..
  | .blt .. => MatchesOwnRow.blt ..
  | .bge .. => MatchesOwnRow.bge ..
  | .ebreak => MatchesOwnRow.ebreak
  | .inv => MatchesOwnRow.inv

/-- Settles O8: in a defined row both are what the row makes of the word; in none of them the map can only answer
`inv`, because a word it encodes to would be in the row of its instruction. -/
theorem tableScanIsOpcodeMap : Obligations.TableScanIsOpcodeMap := by
  intro w
  by_cases hinv : decodeWord w = .inv
  · rcases opcodeMap_invOrEncodes w with hmap | hmap
    · rw [hinv, hmap]
    · have hrow := inRow_encodeWord (opcodeMap w)
      rw [hmap] at hrow
      by_contra hne
      have hm : (opcodeMap w).mnemonic ≠ .inv := fun h => hne (hinv.trans (mnemonic_eq_inv_iff.mp h).symm)
      exact (invalidIffNoDefinedRow w).mp hinv _ (rowOf_mem_definedRows hm) hrow
  · rw [opcodeMap_of_inRow (inRow_decodeWord w) (mnemonic_eq_inv_iff.not.mpr hinv)]
    exact decodeWord_eq_instrOfRow w

end Sys2Proof
end

section
/-!
PROOF. The encoder and the decoder are inverse to each other (30_encoding.md R50, R52, R60 to R63, R68). An encoded
instruction is in its own row, and the row's operands are those it was laid out from; a word is laid out again from
what the opcode map reads in it.
-/

namespace Sys2Proof
open Sys2Proof.Claims

/-- What a row makes of a word that is in it has operands that can be encoded. -/
theorem instrOfRow_wf {m : Mnemonic} {w : Word} (h : InRow m w) : (instrOfRow m w).wf = true := by
  cases m
  case lui | auipc => exact wfImm20_immU w
  case lw | lh | lhu | lbu | addi | andi | xori | sltiu | jalr => exact wfImm12_immI w
  case sw | sh | sb => exact wfImm12_immS w
  case slli | srli | srai => exact wfShift_immI (funct7_of_inRow h rfl) rfl
  case jal => exact wfImm21_immJ w
  case beq | bne | blt | bge => exact wfImm13_immB w
  all_goals rfl

/-- Settles O4: a word is in the row it decodes by. -/
theorem decodedIsWellFormed : Obligations.DecodedIsWellFormed := by
  intro w
  rw [decodeWord_eq_instrOfRow]
  exact instrOfRow_wf (inRow_decodeWord w)

/-- Settles O3: the decoder is the opcode map, and what the map answers encodes to the word. -/
theorem encodeOfDecode : Obligations.EncodeOfDecode := by
  intro w hw
  rw [tableScanIsOpcodeMap w] at hw ⊢
  exact (opcodeMap_invOrEncodes w).resolve_left hw

/-- A well-formed instruction's row makes the instruction of its encoding. -/
theorem instrOfRow_encodeWord {i : Instr} (h : i.wf = true) : instrOfRow i.mnemonic (encodeWord i) = i := by
  cases i
  case lui | auipc => exact congrArg (assemble _) (extract_encU h)
  case lw | lh | lhu | lbu | addi | andi | xori | sltiu | jalr => exact congrArg (assemble _) (extract_encI h)
  case sw | sh | sb => exact congrArg (assemble _) (extract_encS h)
  case slli | srli | srai => exact congrArg (assemble _) (extract_encShift h rfl)
  case jal => exact congrArg (assemble _) (extract_encJ h)
  case beq | bne | blt | bge => exact congrArg (assemble _) (extract_encB h)
  case ebreak | inv => rfl
  all_goals exact congrArg (assemble _) extract_encR

theorem decodeWord_encodeWord {i : Instr} (h : i.wf = true) : decodeWord (encodeWord i) = i := by
  by_cases hm : i.mnemonic = .inv
  · rw [mnemonic_eq_inv_iff.mp hm]
    rfl
  · rw [decodeWord_of_inRow (inRow_encodeWord i) hm, instrOfRow_encodeWord h]

/-- Settles O2: the bytes are those of the encoded word, which decodes to the instruction. -/
theorem decodeOfEncode : Obligations.DecodeOfEncode := by
  intro i rest h
  rw [encode, decode_bytesOfWord, decodeWord_encodeWord h]

/-- Settles O1, by running the decoder on the eleven words. -/
theorem specWordsDecode : Obligations.SpecWordsDecode := by
  unfold Obligations.SpecWordsDecode
  decide

end Sys2Proof
end

section
/-!
PROOF. MATCH selects the matching row of least index (40_decode_and_step.md R85): the scan is the search for the first
row that matches, and the search succeeds because the last row matches every word.
-/

namespace Sys2Proof

theorem scan_eq_find? (w : Word) (rows : List PatternEntry) :
    scan w rows = (rows.find? (·.Matches w)).getD catchAll := by
  induction rows with
  | nil => rfl
  | cons e rest ih =>
    cases hmatch : e.Matches w with
    | true => simp [scan, hmatch]
    | false => simpa [scan, hmatch] using ih

theorem catchAll_matches (w : Word) : catchAll.Matches w = true :=
  beq_iff_eq.mpr BitVec.and_zero

theorem table_find?_eq_matchWord (w : Word) : table.find? (·.Matches w) = some (matchWord w) := by
  have hlast : catchAll ∈ table := List.mem_append_right definedRows List.mem_cons_self
  have hfound : (table.find? (·.Matches w)).isSome := List.find?_isSome.mpr ⟨_, hlast, catchAll_matches w⟩
  obtain ⟨e, he⟩ := Option.isSome_iff_exists.mp hfound
  rw [matchWord, scan_eq_find?, he, Option.getD_some]

/-- Settles O5: the row the scan selects is the first one that matches. -/
theorem leastMatchingRowSelected : Obligations.LeastMatchingRowSelected := by
  refine ⟨rfl, ⟨catchAll, rfl, rfl⟩, fun w => ?_⟩
  obtain ⟨hmatch, k, hk, hrow, hbefore⟩ :=
    List.find?_eq_some_iff_getElem.mp (table_find?_eq_matchWord w)
  refine ⟨k, matchWord w, hk, List.getElem?_eq_some_iff.mpr ⟨hk, hrow⟩, eq_of_beq hmatch, ?_, rfl⟩
  intro j e' hj hrow' hmatch'
  obtain ⟨hlen, rfl⟩ := List.getElem?_eq_some_iff.mp hrow'
  have hnot : table[j].Matches w = false := by simpa using hbefore j hj
  exact absurd (beq_iff_eq.mpr hmatch') (ne_true_of_eq_false hnot)

end Sys2Proof
end

section
/-!
PROOF. What an instruction that continues writes (40_decode_and_step.md R90 to R92): its destination register, the
bytes of its store, and the pc of R92's table.
-/

namespace Sys2Proof.Machine

/-- An instruction without a destination writes through the port at index 0, which changes nothing (R12). -/
theorem readReg_writeReg_dest {i : Instr} {r : RegIndex} (hr : i.dest? ≠ some r) (s : State) (v : Word) :
    (s.writeReg (i.dest?.getD 0#5) v).readReg r = s.readReg r := by
  cases hd : i.dest? with
  | none => rfl
  | some rd => exact readReg_writeReg_other s v fun h => hr (hd.trans (congrArg some h.symm))

theorem exec_next_readReg {i : Instr} {s t : State} (h : exec i s = .next t) {r : RegIndex}
    (hr : i.dest? ≠ some r) : t.readReg r = s.readReg r := by
  rcases exec_cases i s with ⟨v, d, -, hwrite⟩ | ⟨p, v, -, -, hstore⟩ | ⟨c, hraise⟩
  · cases hwrite.symm.trans h
    exact readReg_writeReg_dest hr s v
  · cases hstore.symm.trans h
    rfl
  · exact absurd (hraise.symm.trans h) (raise_ne_next c s t)

/-- Memory changes by the store an instruction makes, or not at all (R90). -/
theorem exec_next_mem {i : Instr} {s t : State} (h : exec i s = .next t) :
    t.mem = s.mem ∨
      ∃ rs1 imm n v, i.store? = some (rs1, imm, n) ∧ t.mem = s.mem.write (effAddr s rs1 imm) n v := by
  rcases exec_cases i s with ⟨v, d, -, hwrite⟩ | ⟨⟨rs1, imm, n⟩, v, hp, -, hstore⟩ | ⟨c, hraise⟩
  · cases hwrite.symm.trans h
    exact .inl (writeReg_mem _ _ _)
  · cases hstore.symm.trans h
    exact .inr ⟨rs1, imm, n, v, hp, rfl⟩
  · exact absurd (hraise.symm.trans h) (raise_ne_next c s t)

/-- Settles O48: one clause for each part of the state an instruction can write. -/
theorem instructionWritesOnlyItsDestination : Obligations.InstructionWritesOnlyItsDestination := by
  intro i s t h
  refine ⟨fun r => exec_next_readReg h, fun a ha => ?_, exec_next_sameParameters h⟩
  rcases exec_next_mem h with hmem | ⟨rs1, imm, n, v, hp, hmem⟩
  · rw [State.byteAt, hmem, State.byteAt]
  · exact byteAt_write_of_not_inAccess hmem (ha rs1 imm n hp)

/-- Settles O34: the committed pc is the table's, a raised result leaves `pc + 4`, and the sum of two even words is
even. -/
theorem nextPcMultiplexer : Obligations.NextPcMultiplexer :=
  ⟨fun _ _ _ => exec_next_pc,
    fun s => ⟨s.pc, s.readReg s.trapArgReg, s.setPc s.snpc, rfl, rfl⟩,
    fun s => ⟨s.pc, s.setPc s.snpc, rfl, rfl⟩,
    fun _ _ hpc himm => clearBit0_of_even (add_even hpc himm)⟩

/-- Settles O13: the value written is computed from the registers before the write. -/
theorem sourcesReadBeforeDestination : Obligations.SourcesReadBeforeDestination := by
  refine ⟨fun r imm s hr => ?_, fun r imm s hr => ?_, fun rd r s hrd => ?_⟩
  · exact ⟨_, rfl, readReg_writeReg_same s _ hr⟩
  · exact ⟨_, rfl, rfl, readReg_writeReg_same s _ hr⟩
  · exact ⟨_, rfl, (readReg_writeReg_same s _ hrd).trans (BitVec.zero_add _)⟩

end Sys2Proof.Machine
end

section
/-!
PROOF. An instruction that is neither load nor store ignores memory and MemAdmits (R90): its operands are registers,
the pc and its immediate, which read the same whatever the two are, and register writes commute with replacing them.
-/

namespace Sys2Proof.Machine

theorem writeReg_setMem (s : State) (m : Memory) (i : RegIndex) (v : Word) :
    (s.setMem m).writeReg i v = (s.writeReg i v).setMem m := by
  unfold State.writeReg
  split <;> rfl

theorem writeReg_setAdmits (s : State) (a : AddressMap) (i : RegIndex) (v : Word) :
    (s.setAdmits a).writeReg i v = (s.writeReg i v).setAdmits a := by
  unfold State.writeReg
  split <;> rfl

/-- The end of every instruction that writes a register, whichever pc it commits. -/
theorem retireTo_setMem_setAdmits {rd : RegIndex} {v d : Word} {s t : State} (h : retireTo rd v d s = .next t)
    (m : Memory) (a : AddressMap) :
    retireTo rd v d ((s.setMem m).setAdmits a) = .next ((t.setMem m).setAdmits a) := by
  cases h
  rw [retireTo_eq, writeReg_setAdmits, writeReg_setMem]
  rfl

theorem exec_setMem_setAdmits {i : Instr} {s t : State} (hload : i.load? = none) (hstore : i.store? = none)
    (h : exec i s = .next t) (m : Memory) (a : AddressMap) :
    exec i ((s.setMem m).setAdmits a) = .next ((t.setMem m).setAdmits a) := by
  cases i
  case lw | lh | lhu | lbu => cases hload
  case sw | sh | sb => cases hstore
  case beq | bne | blt | bge => cases h; rfl
  case ebreak => exact absurd h (raise_ne_next (.hostTrap (s.readReg s.trapArgReg)) s t)
  case inv => exact absurd h (raise_ne_next .decodeFault s t)
  all_goals exact retireTo_setMem_setAdmits h m a

/-- Settles O29: only a store changes memory, no instruction changes MemAdmits, and the run on another memory is the
same run. -/
theorem nonMemoryInstructionsIgnoreMemory : Obligations.NonMemoryInstructionsIgnoreMemory := by
  intro i s t m a hload hstore h
  obtain ⟨hadmits, -⟩ := exec_next_sameParameters h
  refine ⟨?_, hadmits, exec_setMem_setAdmits hload hstore h m a⟩
  rcases exec_next_mem h with hmem | ⟨_, _, _, _, hp, -⟩
  · exact hmem
  · cases hstore.symm.trans hp

end Sys2Proof.Machine
end

section
/-!
PROOF. The step around an instruction (40_decode_and_step.md R84, R95): the fetched word is the four bytes at the pc.
-/

namespace Sys2Proof

theorem decode_four_bytes_eq_ok {b0 b1 b2 b3 : Byte} {i : Instr} {rest : List Byte}
    (h : decode [b0, b1, b2, b3] = .ok (i, rest)) : decodeWord (wordOfBytes b0 b1 b2 b3) = i := by
  cases h
  rfl

end Sys2Proof

namespace Sys2Proof.Machine

/-- A word of memory is its four bytes, the lowest address least significant (R31, R34). -/
theorem read_word_eq_wordOfBytes (s : State) (a : Word) :
    s.mem.read a .word =
      wordOfBytes (s.byteAt a) (s.byteAt (a + 1#32)) (s.byteAt (a + 2#32)) (s.byteAt (a + 3#32)) := by
  have hfirst : byteAddr a 0 = a.toNat := congrArg BitVec.toNat (BitVec.add_zero a)
  rw [Memory.read, hfirst]
  rfl

/-- Settles O41: the step runs the word it fetches, which is the word the four bytes make. -/
theorem stepRunsDecodedInstruction : Obligations.StepRunsDecodedInstruction := by
  intro s i hadmit hdecode
  rw [step_of_fetch (fetch_admitted hadmit), read_word_eq_wordOfBytes, decode_four_bytes_eq_ok hdecode]

/-- Settles O42: a refused fetch gives no word to decode. -/
theorem refusedFetchFaults : Obligations.RefusedFetchFaults :=
  fun _ h => step_of_refused (fetch_refused h)

end Sys2Proof.Machine
end

section
/-!
PROOF. The upper-immediate instructions (41_upper_immediate.md R100, R101): each retires the value its rule gives.
-/

namespace Sys2Proof.Machine
open Sys2Proof.Claims

/-- An instruction that retires a value computes it. -/
theorem computes_of_retire {i : Instr} {s : State} {rd : RegIndex} {v : Word} (hexec : exec i s = retire rd v s) :
    Computes i s rd v :=
  ⟨_, hexec.trans (retire_eq rd v s), writesOnly_writeReg s rd v s.snpc⟩

/-- Settles O19: `lui` retires its immediate and `auipc` the sum, which a word takes modulo 2^32. -/
theorem upperImmediateResults : Obligations.UpperImmediateResults :=
  ⟨fun _ _ _ => computes_of_retire rfl,
    fun _ imm s => ⟨s.pc + imm, computes_of_retire rfl, BitVec.toNat_add s.pc imm⟩⟩

end Sys2Proof.Machine
end

section
/-!
PROOF. The loads (42_loads.md R110 to R114): an admitted load writes the bytes at its effective address, extended; a
refused one leaves the state alone.
-/

namespace Sys2Proof.Machine

/-! ### What an access reads, byte by byte (R32, R34) -/

theorem byteAddr_zero (a : Word) : byteAddr a 0 = a.toNat :=
  congrArg BitVec.toNat (BitVec.add_zero a)

theorem read_half_eq_setWidth_bytes (s : State) (a : Word) :
    s.mem.read a .half = (s.byteAt (a + 1#32) ++ s.byteAt a).setWidth 32 := by
  rw [Memory.read, byteAddr_zero]
  rfl

theorem read_byte_eq_setWidth (s : State) (a : Word) : s.mem.read a .byte = (s.byteAt a).setWidth 32 := by
  rw [Memory.read, byteAddr_zero]
  rfl

/-- Side by side, the high byte weighs 256. -/
theorem toNat_append_byte (high low : Byte) : (high ++ low).toNat = high.toNat * 256 + low.toNat := by
  rw [BitVec.toNat_append, ← Nat.shiftLeft_add_eq_or_of_lt low.isLt, Nat.shiftLeft_eq]

/-- Zero extension to a word keeps the value (R112, R113). -/
theorem toNat_extZero_setWidth {n : Nat} (hn : n ≤ 32) (x : BitVec n) :
    (extZero (x.setWidth 32)).toNat = x.toNat :=
  BitVec.toNat_setWidth_of_le hn

/-! ### What a load does -/

/-- Every load is one read at its effective address, extended into some register (R114). -/
theorem exec_eq_loadInto_of_load {i : Instr} {rs1 : RegIndex} {imm : Word} {n : Width}
    (h : i.load? = some (rs1, imm, n)) (s : State) :
    ∃ rd ext, exec i s = loadInto rd (effAddr s rs1 imm) n ext s := by
  cases i
  case lw | lh | lhu | lbu => cases h; exact ⟨_, _, rfl⟩
  all_goals cases h

theorem loadInto_refused {a : Word} {n : Width} {s : State} (hrefused : mapAdmits s.admits a n .read = false)
    (rd : RegIndex) (ext : Word → Word) : loadInto rd a n ext s = .fault (.memoryFault s.pc a s) := by
  rcases loadInto_cases rd a n ext s with ⟨hadmit, -⟩ | ⟨-, hfault⟩
  · exact absurd (hadmit.symm.trans hrefused) (by decide)
  · exact hfault

/-! ### The statements -/

/-- Settles O35: each load reads the bytes of its width; what is left is how they are extended. -/
theorem loadResults : Obligations.LoadResults := by
  intro rd rs1 imm s
  refine ⟨fun hadmit => ?_, fun hadmit => ?_, fun hadmit => ?_, fun hadmit => ?_⟩
  · have hlw := computes_of_loadInto (i := .lw rd rs1 imm) rfl hadmit
    rwa [extZero, read_word_eq_wordOfBytes] at hlw
  · have hlh := computes_of_loadInto (i := .lh rd rs1 imm) rfl hadmit
    rwa [read_half_eq_setWidth_bytes, extSign16_setWidth] at hlh
  · refine ⟨_, computes_of_loadInto (i := .lhu rd rs1 imm) rfl hadmit, ?_⟩
    rw [read_half_eq_setWidth_bytes, toNat_extZero_setWidth (by decide), toNat_append_byte]
  · refine ⟨_, computes_of_loadInto (i := .lbu rd rs1 imm) rfl hadmit, ?_⟩
    rw [read_byte_eq_setWidth, toNat_extZero_setWidth (by decide)]

/-- Settles O36: a load is its one read, and the read is refused. -/
theorem loadFaults : Obligations.LoadFaults := by
  intro i rs1 imm n s hload hrefused
  obtain ⟨rd, ext, hexec⟩ := exec_eq_loadInto_of_load hload s
  exact hexec.trans (loadInto_refused hrefused rd ext)

end Sys2Proof.Machine
end

section
/-!
PROOF. The stores (43_stores.md R120 to R123): an admitted store writes the low bytes of its source register at its
effective address; a refused one leaves the state alone.
-/

namespace Sys2Proof.Machine

/-- Storing the bytes and committing `pc + 4` does what R123 says: the bytes of the access are the value's (R33), and
nothing else changes but the pc. -/
theorem storesOnly_setMem_write (s : State) (a : Word) (n : Width) (v : Word) :
    StoresOnly s ((s.setMem (s.mem.write a n v)).setPc s.snpc) a n v := by
  refine ⟨rfl, fun _ _ => rfl, ⟨rfl, rfl⟩, fun b hb => ?_, fun hm i hi => ?_⟩
  · exact byteAt_write_of_not_inAccess rfl hb
  · exact get_write_same hm a n v hi

/-- An instruction that is an admitted store completes. -/
theorem exists_storesOnly_of_storeTo {i : Instr} {s : State} {a v : Word} {n : Width}
    (hexec : exec i s = storeTo a n v s) (hadmit : mapAdmits s.admits a n .write = true) :
    ∃ t, exec i s = .next t ∧ StoresOnly s t a n v := by
  rcases storeTo_cases a n v s with ⟨-, hnext⟩ | ⟨hrefused, -⟩
  · exact ⟨_, hexec.trans hnext, storesOnly_setMem_write s a n v⟩
  · exact absurd (hadmit.symm.trans hrefused) (by decide)

/-- Every store is one write of some value at its effective address (R123). -/
theorem exec_eq_storeTo_of_store {i : Instr} {rs1 : RegIndex} {imm : Word} {n : Width}
    (h : i.store? = some (rs1, imm, n)) (s : State) :
    ∃ v, exec i s = storeTo (effAddr s rs1 imm) n v s := by
  cases i
  case sw | sh | sb => cases h; exact ⟨_, rfl⟩
  all_goals cases h

theorem storeTo_refused {a : Word} {n : Width} {s : State} (hrefused : mapAdmits s.admits a n .write = false)
    (v : Word) : storeTo a n v s = .fault (.memoryFault s.pc a s) := by
  rcases storeTo_cases a n v s with ⟨hadmit, -⟩ | ⟨-, hfault⟩
  · exact absurd (hadmit.symm.trans hrefused) (by decide)
  · exact hfault

/-- Settles O37: each of the three is one store of the source register, at its own width. -/
theorem storeResults : Obligations.StoreResults :=
  fun _ _ _ _ => ⟨exists_storesOnly_of_storeTo rfl, exists_storesOnly_of_storeTo rfl, exists_storesOnly_of_storeTo rfl⟩

/-- Settles O38: a store is its one write, and the write is refused. -/
theorem storeFaults : Obligations.StoreFaults := by
  intro i rs1 imm n s hstore hrefused
  obtain ⟨v, hexec⟩ := exec_eq_storeTo_of_store hstore s
  exact hexec.trans (storeTo_refused hrefused v)

end Sys2Proof.Machine
end

section
/-!
PROOF. The register-immediate ALU instructions (44_alu_immediate.md R130 to R137). `RetiresImmediate` says once, for one
of them, the row that decodes to it and the value it retires; what the seven have in common follows from that, and what
each writes is left to a fact about the value alone.
-/

namespace Sys2Proof.Machine
open Sys2Proof.Claims

/-! ### Values in plain arithmetic -/

/-- The low 5 bits are the value modulo 32 (R63, R145). -/
theorem shiftAmount_eq_mod (v : Word) : shiftAmount v = v.toNat % 32 := by
  rw [shiftAmount, BitVec.extractLsb'_toNat, Nat.shiftRight_zero]

theorem toNat_shiftLeft_shiftAmount (a v : Word) :
    (shiftLeft a (shiftAmount v)).toNat = a.toNat * 2 ^ (v.toNat % 32) % 2 ^ 32 := by
  rw [shiftLeft, shiftAmount_eq_mod, BitVec.toNat_shiftLeft, Nat.shiftLeft_eq]

theorem toNat_shiftRightLogical_shiftAmount (a v : Word) :
    (shiftRightLogical a (shiftAmount v)).toNat = a.toNat / 2 ^ (v.toNat % 32) := by
  rw [shiftRightLogical, shiftAmount_eq_mod, BitVec.toNat_ushiftRight, Nat.shiftRight_eq_div_pow]

/-- The arithmetic shift rounds the signed quotient down: `Int` division by a positive number does so (R135, R147). -/
theorem toInt_shiftRightArith_shiftAmount (a v : Word) :
    (shiftRightArith a (shiftAmount v)).toInt = a.toInt / 2 ^ (v.toNat % 32) := by
  rw [shiftRightArith, shiftAmount_eq_mod, BitVec.toInt_sshiftRight, Int.shiftRight_eq_div_pow, Nat.cast_pow,
    Nat.cast_ofNat]

theorem boolWord_decide (p : Prop) [Decidable p] : boolWord (decide p) = if p then 1#32 else 0#32 := by
  simp only [boolWord, decide_eq_true_eq]

theorem boolWord_ltUnsigned (a b : Word) :
    boolWord (ltUnsigned a b) = if a.toNat < b.toNat then 1#32 else 0#32 :=
  boolWord_decide (a.toNat < b.toNat)

/-! ### An instruction that retires a function of its register and its immediate -/

/-- `c` is the I-format instruction of mnemonic `m`: it keeps its operands apart, the row of `m` makes it of a word's
fields, and it retires `f` of its source register and its immediate. -/
structure RetiresImmediate (c : RegIndex → RegIndex → Word → Instr) (m : Mnemonic) (f : Word → Word → Word) : Prop where
  injective : ∀ {rd rs1 imm rd' rs1' imm'}, c rd rs1 imm = c rd' rs1' imm' → rd = rd' ∧ rs1 = rs1' ∧ imm = imm'
  mnemonic : ∀ rd rs1 imm, (c rd rs1 imm).mnemonic = m
  row : ∀ w, instrOfRow m w = c (fieldRd w) (fieldRs1 w) (immI w)
  retires : ∀ rd rs1 imm s, exec (c rd rs1 imm) s = retire rd (f (s.readReg rs1) imm) s

section
variable {c : RegIndex → RegIndex → Word → Instr} {m : Mnemonic} {f : Word → Word → Word}

theorem RetiresImmediate.computes (h : RetiresImmediate c m f) (rd rs1 : RegIndex) (imm : Word) (s : State) :
    Computes (c rd rs1 imm) s rd (f (s.readReg rs1) imm) :=
  computes_of_retire (h.retires rd rs1 imm s)

/-- A word that decodes to the instruction does so by its row, so the operands are the word's fields (R51, R53). -/
theorem RetiresImmediate.fields_of_decodeWord (h : RetiresImmediate c m f) {w imm : Word} {rd rs1 : RegIndex}
    (hdecode : decodeWord w = c rd rs1 imm) : rd = fieldRd w ∧ rs1 = fieldRs1 w ∧ imm = immI w := by
  apply h.injective
  calc c rd rs1 imm
    _ = instrOfRow (decodeWord w).mnemonic w := hdecode.symm.trans (decodeWord_eq_instrOfRow w)
    _ = instrOfRow m w := by rw [hdecode, h.mnemonic]
    _ = c (fieldRd w) (fieldRs1 w) (immI w) := h.row w

theorem RetiresImmediate.commonI (h : RetiresImmediate c m f) : CommonI c := by
  refine ⟨fun w rd rs1 imm hdecode => ?_, f, h.computes⟩
  obtain ⟨hI, -⟩ := immediatesIS
  obtain ⟨-, hrange⟩ := hI w
  obtain ⟨rfl, rfl, rfl⟩ := h.fields_of_decodeWord hdecode
  exact ⟨rfl, rfl, rfl, hrange⟩

theorem RetiresImmediate.valueI (h : RetiresImmediate c m f) {P : Word → Word → Word → Prop}
    (hvalue : ∀ a imm, P a imm (f a imm)) : ValueI c P :=
  fun rd rs1 imm s => ⟨_, h.computes rd rs1 imm s, hvalue _ imm⟩

end

/-! ### The seven instructions (R130 to R136) -/

theorem addi_retiresImmediate : RetiresImmediate .addi .addi fun a imm => a + imm :=
  ⟨Instr.addi.inj, fun _ _ _ => rfl, fun _ => rfl, fun _ _ _ _ => rfl⟩

theorem andi_retiresImmediate : RetiresImmediate .andi .andi fun a imm => a &&& imm :=
  ⟨Instr.andi.inj, fun _ _ _ => rfl, fun _ => rfl, fun _ _ _ _ => rfl⟩

theorem xori_retiresImmediate : RetiresImmediate .xori .xori fun a imm => a ^^^ imm :=
  ⟨Instr.xori.inj, fun _ _ _ => rfl, fun _ => rfl, fun _ _ _ _ => rfl⟩

theorem slli_retiresImmediate : RetiresImmediate .slli .slli fun a imm => shiftLeft a (shiftAmount imm) :=
  ⟨Instr.slli.inj, fun _ _ _ => rfl, fun _ => rfl, fun _ _ _ _ => rfl⟩

theorem srli_retiresImmediate : RetiresImmediate .srli .srli fun a imm => shiftRightLogical a (shiftAmount imm) :=
  ⟨Instr.srli.inj, fun _ _ _ => rfl, fun _ => rfl, fun _ _ _ _ => rfl⟩

theorem srai_retiresImmediate : RetiresImmediate .srai .srai fun a imm => shiftRightArith a (shiftAmount imm) :=
  ⟨Instr.srai.inj, fun _ _ _ => rfl, fun _ => rfl, fun _ _ _ _ => rfl⟩

theorem sltiu_retiresImmediate : RetiresImmediate .sltiu .sltiu fun a imm => boolWord (ltUnsigned a imm) :=
  ⟨Instr.sltiu.inj, fun _ _ _ => rfl, fun _ => rfl, fun _ _ _ _ => rfl⟩

/-! ### The statements -/

/-- Settles O20: each of the seven retires a function of its register and its immediate, and the sum and the left shift
are those of words. -/
theorem immediateAluCommon : Obligations.ImmediateAluCommon :=
  ⟨addi_retiresImmediate.commonI, andi_retiresImmediate.commonI, xori_retiresImmediate.commonI,
    slli_retiresImmediate.commonI, srli_retiresImmediate.commonI, srai_retiresImmediate.commonI,
    sltiu_retiresImmediate.commonI, addi_retiresImmediate.valueI BitVec.toNat_add,
    slli_retiresImmediate.valueI toNat_shiftLeft_shiftAmount⟩

/-- Settles O23: each retired value, read in plain arithmetic. -/
theorem immediateAluValues : Obligations.ImmediateAluValues :=
  ⟨addi_retiresImmediate.valueI BitVec.toNat_add,
    andi_retiresImmediate.valueI fun _ _ _ => BitVec.getLsbD_and,
    xori_retiresImmediate.valueI fun _ _ _ => BitVec.getLsbD_xor,
    slli_retiresImmediate.valueI toNat_shiftLeft_shiftAmount,
    srli_retiresImmediate.valueI toNat_shiftRightLogical_shiftAmount,
    srai_retiresImmediate.valueI toInt_shiftRightArith_shiftAmount,
    sltiu_retiresImmediate.valueI boolWord_ltUnsigned⟩

end Sys2Proof.Machine
end

section
/-!
PROOF. The register-register ALU instructions (45_alu_register.md R140 to R150). `RetiresRegister` says once, for one
R-format instruction, the row that decodes to it and the value it retires; what the ten have in common follows from
that, and what each writes is left to a fact about the value alone.
-/

namespace Sys2Proof.Machine
open Sys2Proof.Claims

/-! ### Values in plain arithmetic -/

/-- The difference of words is the exact difference, brought back into a word's range by `Int` remainder (R141). -/
theorem toNat_sub_eq_emod (a b : Word) : ((a - b).toNat : Int) = ((a.toNat : Int) - b.toNat) % 2 ^ 32 := by
  have hb : b.toNat < 2 ^ 32 := b.isLt
  rw [BitVec.toNat_sub]
  omega

theorem boolWord_ltSigned (a b : Word) :
    boolWord (ltSigned a b) = if a.toInt < b.toInt then 1#32 else 0#32 :=
  boolWord_decide (a.toInt < b.toInt)

/-! ### An instruction that retires a function of its two source registers -/

/-- `c` is the R-format instruction of mnemonic `m`: it keeps its operands apart, the row of `m` makes it of a word's
fields, and it retires `f` of its two source registers. -/
structure RetiresRegister (c : RegIndex → RegIndex → RegIndex → Instr) (m : Mnemonic) (f : Word → Word → Word) :
    Prop where
  injective : ∀ {rd rs1 rs2 rd' rs1' rs2'}, c rd rs1 rs2 = c rd' rs1' rs2' → rd = rd' ∧ rs1 = rs1' ∧ rs2 = rs2'
  mnemonic : ∀ rd rs1 rs2, (c rd rs1 rs2).mnemonic = m
  row : ∀ w, instrOfRow m w = c (fieldRd w) (fieldRs1 w) (fieldRs2 w)
  retires : ∀ rd rs1 rs2 s, exec (c rd rs1 rs2) s = retire rd (f (s.readReg rs1) (s.readReg rs2)) s

section
variable {c : RegIndex → RegIndex → RegIndex → Instr} {m : Mnemonic} {f : Word → Word → Word}

theorem RetiresRegister.computes (h : RetiresRegister c m f) (rd rs1 rs2 : RegIndex) (s : State) :
    Computes (c rd rs1 rs2) s rd (f (s.readReg rs1) (s.readReg rs2)) :=
  computes_of_retire (h.retires rd rs1 rs2 s)

/-- A word that decodes to the instruction does so by its row, so the operands are the word's fields (R51). -/
theorem RetiresRegister.fields_of_decodeWord (h : RetiresRegister c m f) {w : Word} {rd rs1 rs2 : RegIndex}
    (hdecode : decodeWord w = c rd rs1 rs2) : rd = fieldRd w ∧ rs1 = fieldRs1 w ∧ rs2 = fieldRs2 w := by
  have hrow := decodeWord_eq_instrOfRow w
  rw [hdecode, h.mnemonic, h.row] at hrow
  exact h.injective hrow

theorem RetiresRegister.commonR (h : RetiresRegister c m f) : CommonR c :=
  ⟨fun _ _ _ _ => h.fields_of_decodeWord, f, h.computes⟩

theorem RetiresRegister.valueR (h : RetiresRegister c m f) {P : Word → Word → Word → Prop}
    (hvalue : ∀ a b, P a b (f a b)) : ValueR c P :=
  fun rd rs1 rs2 s => ⟨_, h.computes rd rs1 rs2 s, hvalue _ _⟩

end

/-! ### The ten instructions (R140 to R149) -/

theorem add_retiresRegister : RetiresRegister .add .add fun a b => a + b :=
  ⟨Instr.add.inj, fun _ _ _ => rfl, fun _ => rfl, fun _ _ _ _ => rfl⟩

theorem sub_retiresRegister : RetiresRegister .sub .sub fun a b => a - b :=
  ⟨Instr.sub.inj, fun _ _ _ => rfl, fun _ => rfl, fun _ _ _ _ => rfl⟩

theorem and_retiresRegister : RetiresRegister .and .and fun a b => a &&& b :=
  ⟨Instr.and.inj, fun _ _ _ => rfl, fun _ => rfl, fun _ _ _ _ => rfl⟩

theorem or_retiresRegister : RetiresRegister .or .or fun a b => a ||| b :=
  ⟨Instr.or.inj, fun _ _ _ => rfl, fun _ => rfl, fun _ _ _ _ => rfl⟩

theorem xor_retiresRegister : RetiresRegister .xor .xor fun a b => a ^^^ b :=
  ⟨Instr.xor.inj, fun _ _ _ => rfl, fun _ => rfl, fun _ _ _ _ => rfl⟩

theorem sll_retiresRegister : RetiresRegister .sll .sll fun a b => shiftLeft a (shiftAmount b) :=
  ⟨Instr.sll.inj, fun _ _ _ => rfl, fun _ => rfl, fun _ _ _ _ => rfl⟩

theorem srl_retiresRegister : RetiresRegister .srl .srl fun a b => shiftRightLogical a (shiftAmount b) :=
  ⟨Instr.srl.inj, fun _ _ _ => rfl, fun _ => rfl, fun _ _ _ _ => rfl⟩

theorem sra_retiresRegister : RetiresRegister .sra .sra fun a b => shiftRightArith a (shiftAmount b) :=
  ⟨Instr.sra.inj, fun _ _ _ => rfl, fun _ => rfl, fun _ _ _ _ => rfl⟩

theorem slt_retiresRegister : RetiresRegister .slt .slt fun a b => boolWord (ltSigned a b) :=
  ⟨Instr.slt.inj, fun _ _ _ => rfl, fun _ => rfl, fun _ _ _ _ => rfl⟩

theorem sltu_retiresRegister : RetiresRegister .sltu .sltu fun a b => boolWord (ltUnsigned a b) :=
  ⟨Instr.sltu.inj, fun _ _ _ => rfl, fun _ => rfl, fun _ _ _ _ => rfl⟩

/-! ### The statements -/

/-- Settles O21: each of the ten retires a function of its two registers, and the sum, the difference and the left
shift are those of words. -/
theorem registerAluCommon : Obligations.RegisterAluCommon :=
  ⟨add_retiresRegister.commonR, sub_retiresRegister.commonR, and_retiresRegister.commonR, or_retiresRegister.commonR,
    xor_retiresRegister.commonR, sll_retiresRegister.commonR, srl_retiresRegister.commonR,
    sra_retiresRegister.commonR, slt_retiresRegister.commonR, sltu_retiresRegister.commonR,
    add_retiresRegister.valueR BitVec.toNat_add, sub_retiresRegister.valueR toNat_sub_eq_emod,
    sll_retiresRegister.valueR toNat_shiftLeft_shiftAmount⟩

/-- Settles O24: each retired value, read in plain arithmetic. -/
theorem registerAluValues : Obligations.RegisterAluValues :=
  ⟨add_retiresRegister.valueR BitVec.toNat_add,
    sub_retiresRegister.valueR toNat_sub_eq_emod,
    and_retiresRegister.valueR fun _ _ _ => BitVec.getLsbD_and,
    or_retiresRegister.valueR fun _ _ _ => BitVec.getLsbD_or,
    xor_retiresRegister.valueR fun _ _ _ => BitVec.getLsbD_xor,
    sll_retiresRegister.valueR toNat_shiftLeft_shiftAmount,
    srl_retiresRegister.valueR toNat_shiftRightLogical_shiftAmount,
    sra_retiresRegister.valueR toInt_shiftRightArith_shiftAmount,
    slt_retiresRegister.valueR boolWord_ltSigned,
    sltu_retiresRegister.valueR boolWord_ltUnsigned⟩

end Sys2Proof.Machine
end

section
/-!
PROOF. The multiply and divide instructions (46_muldiv.md R160 to R167). Each is a `RetiresRegister`, so what the six
have in common and where they write is said already; what is left are facts about the six functions of two words: one
equation for each branch, then the exact values and the division law.
-/

namespace Sys2Proof.Machine
open Sys2Proof.Claims

/-! ### The products (R160, R161) -/

/-- The low half of the product of the signed readings is the product of words, which no reading enters. -/
theorem mulLow_eq_mul (a b : Word) : mulLow a b = a * b := by
  rw [mulLow, BitVec.ofInt_mul, BitVec.ofInt_toInt, BitVec.ofInt_toInt]

theorem toNat_mulLow (a b : Word) : (mulLow a b).toNat = a.toNat * b.toNat % 2 ^ 32 := by
  rw [mulLow_eq_mul, BitVec.toNat_mul]

theorem toNat_mulLow_eq_emod (a b : Word) : ((mulLow a b).toNat : Int) = a.toInt * b.toInt % 2 ^ 32 := by
  have hnonneg : 0 ≤ a.toInt * b.toInt % 2 ^ 32 := Int.emod_nonneg _ (by decide)
  rw [mulLow, BitVec.toNat_ofInt]
  exact Int.toNat_of_nonneg hnonneg

/-- The exact product needs no more than 63 bits, so its 64-bit word loses nothing and the upper half of that word,
read as signed, is the product divided by `2 ^ 32` and rounded down. -/
theorem toInt_mulHigh (a b : Word) : (mulHigh a b).toInt = a.toInt * b.toInt / 2 ^ 32 := by
  have hle : a.toInt * b.toInt ≤ 2 ^ 62 := BitVec.toInt_mul_toInt_le
  have hge : -(2 ^ 62) ≤ a.toInt * b.toInt := BitVec.le_toInt_mul_toInt
  rw [mulHigh, BitVec.toInt_extractLsb', BitVec.toNat_ofInt, Int.bmod_def]
  generalize a.toInt * b.toInt = product at *
  rw [Nat.shiftRight_eq_div_pow]
  omega

/-! ### The branches of the divisions (R162 to R165) -/

theorem divSigned_zero (a : Word) : divSigned a 0#32 = 0xFFFFFFFF#32 := rfl

theorem remSigned_zero (a : Word) : remSigned a 0#32 = a := rfl

theorem divUnsigned_zero (a : Word) : divUnsigned a 0#32 = 0xFFFFFFFF#32 := rfl

theorem remUnsigned_zero (a : Word) : remUnsigned a 0#32 = a := rfl

theorem divSigned_of_overflows {a b : Word} (h : Overflows a b) : divSigned a b = 0x80000000#32 := by
  obtain ⟨rfl, rfl⟩ := h
  decide

theorem remSigned_of_overflows {a b : Word} (h : Overflows a b) : remSigned a b = 0#32 := by
  obtain ⟨rfl, rfl⟩ := h
  decide

theorem divUnsigned_of_ne_zero (a : Word) {b : Word} (hb : b ≠ 0#32) :
    divUnsigned a b = BitVec.ofNat 32 (a.toNat / b.toNat) := if_neg hb

theorem remUnsigned_of_ne_zero (a : Word) {b : Word} (hb : b ≠ 0#32) :
    remUnsigned a b = BitVec.ofNat 32 (a.toNat % b.toNat) := if_neg hb

section
variable {a b : Word} (hb : b ≠ 0#32) (hover : ¬ Overflows a b)
include hb hover

theorem divSigned_of_not_overflows : divSigned a b = BitVec.ofInt 32 (a.toInt.tdiv b.toInt) :=
  (if_neg hb).trans (if_neg hover)

theorem remSigned_of_not_overflows :
    remSigned a b = BitVec.ofInt 32 (a.toInt - a.toInt.tdiv b.toInt * b.toInt) :=
  (if_neg hb).trans (if_neg hover)

/-! ### The exact values away from the corners -/

/-- Only the overflow's quotient leaves the signed range; any other is the library's signed quotient of words. -/
theorem toInt_divSigned : (divSigned a b).toInt = a.toInt.tdiv b.toInt := by
  have hquotient : (a.sdiv b).toInt = a.toInt.tdiv b.toInt :=
    BitVec.toInt_sdiv_of_ne_or_ne a b (not_and_or.mp hover)
  rw [divSigned_of_not_overflows hb hover, ← hquotient, BitVec.ofInt_toInt]

/-- The dividend minus quotient times divisor is the truncating remainder, which is always a word's signed reading. -/
theorem toInt_remSigned : (remSigned a b).toInt = a.toInt.tmod b.toInt := by
  have hrem : a.toInt - a.toInt.tdiv b.toInt * b.toInt = (a.srem b).toInt := by
    rw [BitVec.toInt_srem, Int.tmod_def, Int.mul_comm]
  rw [remSigned_of_not_overflows hb hover, hrem, BitVec.ofInt_toInt, BitVec.toInt_srem]

theorem natAbs_remSigned_lt : (remSigned a b).toInt.natAbs < b.toInt.natAbs := by
  have hpos : 0 < b.toInt.natAbs := Int.natAbs_pos.mpr (BitVec.toInt_ne.mpr hb)
  rw [toInt_remSigned hb hover, Int.natAbs_tmod]
  exact Nat.mod_lt _ hpos

/-- A remainder that is not zero has the dividend's sign. -/
theorem remSigned_neg_iff (hne : (remSigned a b).toInt ≠ 0) : (remSigned a b).toInt < 0 ↔ a.toInt < 0 := by
  rw [toInt_remSigned hb hover] at hne ⊢
  rw [← Int.sign_eq_neg_one_iff_neg, Int.sign_tmod, if_neg (mt Int.tmod_eq_zero_of_dvd hne),
    Int.sign_eq_neg_one_iff_neg]

end

theorem toNat_divUnsigned (a : Word) {b : Word} (hb : b ≠ 0#32) : (divUnsigned a b).toNat = a.toNat / b.toNat := by
  rw [divUnsigned_of_ne_zero a hb, BitVec.toNat_ofNat]
  exact Nat.mod_eq_of_lt ((Nat.div_le_self _ _).trans_lt a.isLt)

theorem toNat_remUnsigned (a : Word) {b : Word} (hb : b ≠ 0#32) : (remUnsigned a b).toNat = a.toNat % b.toNat := by
  rw [remUnsigned_of_ne_zero a hb, BitVec.toNat_ofNat]
  exact Nat.mod_eq_of_lt ((Nat.mod_le _ _).trans_lt a.isLt)

/-! ### Quotient times divisor plus remainder -/

/-- Narrowing to a word keeps sums and products, so the law of the integers is the law of words; the corners are
computed. -/
theorem divSigned_mul_add_remSigned (a b : Word) : divSigned a b * b + remSigned a b = a := by
  by_cases hb : b = 0#32
  · rw [hb, remSigned_zero, BitVec.mul_zero, BitVec.zero_add]
  by_cases hover : Overflows a b
  · obtain ⟨rfl, rfl⟩ := hover
    decide
  calc divSigned a b * b + remSigned a b
    _ = BitVec.ofInt 32 (a.toInt.tdiv b.toInt) * BitVec.ofInt 32 b.toInt
          + BitVec.ofInt 32 (a.toInt - a.toInt.tdiv b.toInt * b.toInt) := by
      rw [divSigned_of_not_overflows hb hover, remSigned_of_not_overflows hb hover, BitVec.ofInt_toInt]
    _ = BitVec.ofInt 32 a.toInt := by rw [← BitVec.ofInt_mul, ← BitVec.ofInt_add, add_sub_cancel]
    _ = a := BitVec.ofInt_toInt

theorem divUnsigned_mul_add_remUnsigned (a b : Word) : divUnsigned a b * b + remUnsigned a b = a := by
  by_cases hb : b = 0#32
  · rw [hb, remUnsigned_zero, BitVec.mul_zero, BitVec.zero_add]
  apply BitVec.eq_of_toNat_eq
  rw [BitVec.toNat_add, BitVec.toNat_mul, toNat_divUnsigned a hb, toNat_remUnsigned a hb, Nat.mod_add_mod,
    Nat.div_add_mod', Nat.mod_eq_of_lt a.isLt]

/-! ### The six instructions (R160 to R165) -/

theorem mul_retiresRegister : RetiresRegister .mul .mul mulLow :=
  ⟨Instr.mul.inj, fun _ _ _ => rfl, fun _ => rfl, fun _ _ _ _ => rfl⟩

theorem mulh_retiresRegister : RetiresRegister .mulh .mulh mulHigh :=
  ⟨Instr.mulh.inj, fun _ _ _ => rfl, fun _ => rfl, fun _ _ _ _ => rfl⟩

theorem div_retiresRegister : RetiresRegister .div .div divSigned :=
  ⟨Instr.div.inj, fun _ _ _ => rfl, fun _ => rfl, fun _ _ _ _ => rfl⟩

theorem rem_retiresRegister : RetiresRegister .rem .rem remSigned :=
  ⟨Instr.rem.inj, fun _ _ _ => rfl, fun _ => rfl, fun _ _ _ _ => rfl⟩

theorem divu_retiresRegister : RetiresRegister .divu .divu divUnsigned :=
  ⟨Instr.divu.inj, fun _ _ _ => rfl, fun _ => rfl, fun _ _ _ _ => rfl⟩

theorem remu_retiresRegister : RetiresRegister .remu .remu remUnsigned :=
  ⟨Instr.remu.inj, fun _ _ _ => rfl, fun _ => rfl, fun _ _ _ _ => rfl⟩

/-- Where the destination holds results, a retired value is read back from it. -/
theorem RetiresRegister.exists_readReg {c : RegIndex → RegIndex → RegIndex → Instr} {m : Mnemonic}
    {f : Word → Word → Word} (h : RetiresRegister c m f) {rd : RegIndex} (hrd : rd ≠ 0#5) (rs1 rs2 : RegIndex)
    (s : State) : ∃ t, exec (c rd rs1 rs2) s = .next t ∧ t.readReg rd = f (s.readReg rs1) (s.readReg rs2) := by
  obtain ⟨t, hexec, -, hread, -⟩ := h.computes rd rs1 rs2 s
  exact ⟨t, hexec, hread hrd⟩

/-- Two instructions whose functions obey the division law leave results that obey it. -/
theorem quotient_remainder_readReg {cq cr : RegIndex → RegIndex → RegIndex → Instr} {mq mr : Mnemonic}
    {q r : Word → Word → Word} (hq : RetiresRegister cq mq q) (hr : RetiresRegister cr mr r)
    (hlaw : ∀ a b, q a b * b + r a b = a) {rd : RegIndex} (hrd : rd ≠ 0#5) (rs1 rs2 : RegIndex) (s : State) :
    ∃ t u, exec (cq rd rs1 rs2) s = .next t ∧ exec (cr rd rs1 rs2) s = .next u ∧
      t.readReg rd * s.readReg rs2 + u.readReg rd = s.readReg rs1 := by
  obtain ⟨t, hexecq, hreadq⟩ := hq.exists_readReg hrd rs1 rs2 s
  obtain ⟨u, hexecr, hreadr⟩ := hr.exists_readReg hrd rs1 rs2 s
  exact ⟨t, u, hexecq, hexecr, by rw [hreadq, hreadr, hlaw]⟩

/-! ### The statements -/

/-- Settles O22: each of the six retires a function of its two registers on every operand. -/
theorem mulDivCommon : Obligations.MulDivCommon :=
  ⟨mul_retiresRegister.commonR, mulh_retiresRegister.commonR, div_retiresRegister.commonR,
    rem_retiresRegister.commonR, divu_retiresRegister.commonR, remu_retiresRegister.commonR⟩

/-- Settles O25: the low half of the product under both readings and the high half of the signed one. -/
theorem productValues : Obligations.ProductValues :=
  ⟨mul_retiresRegister.valueR fun a b => ⟨toNat_mulLow a b, toNat_mulLow_eq_emod a b⟩,
    mulh_retiresRegister.valueR toInt_mulHigh⟩

/-- Settles O26: the zero divisor, the overflow, and the exact truncating division otherwise. -/
theorem signedDivisionValues : Obligations.SignedDivisionValues := by
  refine ⟨div_retiresRegister.valueR fun a b => ⟨?_, divSigned_of_overflows, toInt_divSigned⟩,
    rem_retiresRegister.valueR fun a b => ⟨?_, remSigned_of_overflows, fun hb hover => ⟨?_, ?_, ?_⟩⟩⟩
  · rintro rfl
    exact divSigned_zero a
  · rintro rfl
    exact remSigned_zero a
  · rw [toInt_remSigned hb hover, Int.tmod_def, Int.mul_comm]
  · exact natAbs_remSigned_lt hb hover
  · exact remSigned_neg_iff hb hover

/-- Settles O27: the zero divisor, and the exact unsigned division otherwise. -/
theorem unsignedDivisionValues : Obligations.UnsignedDivisionValues := by
  refine ⟨divu_retiresRegister.valueR fun a b => ⟨?_, toNat_divUnsigned a⟩,
    remu_retiresRegister.valueR fun a b => ⟨?_, toNat_remUnsigned a⟩⟩
  · rintro rfl
    exact divUnsigned_zero a
  · rintro rfl
    exact remUnsigned_zero a

/-- Settles O28: the division law of the two pairs of functions, read from the states the instructions leave. -/
theorem quotientTimesDivisorPlusRemainder : Obligations.QuotientTimesDivisorPlusRemainder :=
  fun _ rs1 rs2 s hrd =>
    ⟨quotient_remainder_readReg div_retiresRegister rem_retiresRegister divSigned_mul_add_remSigned hrd rs1 rs2 s,
      quotient_remainder_readReg divu_retiresRegister remu_retiresRegister divUnsigned_mul_add_remUnsigned hrd rs1 rs2
        s⟩

end Sys2Proof.Machine
end

section
/-!
PROOF. The unconditional jumps (47_jumps.md R170 to R172): each links `pc + 4` and commits its target.
-/

namespace Sys2Proof.Machine

/-- Forcing bit 0 keeps every other bit (R92, R171). -/
theorem clearBit0_getLsbD (t : Word) {k : Nat} (hk : 0 < k) : (clearBit0 t).getLsbD k = t.getLsbD k := by
  rw [clearBit0, BitVec.getLsbD_and]
  by_cases hlt : k < 32
  · have hmask : (0xFFFFFFFE#32 : Word).getLsbD k = true := clearMask_bit ⟨k, hlt⟩ (Nat.ne_of_gt hk)
    rw [hmask, Bool.and_true]
  · rw [BitVec.getLsbD_of_ge t k (Nat.le_of_not_lt hlt), Bool.false_and]

/-- Settles O30: both retire the link; the target of `jalr` has bit 0 forced. -/
theorem jumpResults : Obligations.JumpResults := by
  refine ⟨fun rd imm s => ?_, fun rd rs1 imm s => ?_⟩
  · exact ⟨_, rfl, writesOnly_writeReg s rd s.snpc (jalTarget s imm)⟩
  · exact ⟨_, jalrTarget s rs1 imm, rfl, writesOnly_writeReg s rd s.snpc _, clearBit0_even _,
      fun _ => clearBit0_getLsbD _⟩

end Sys2Proof.Machine
end

section
/-!
PROOF. The conditional branches (48_branches.md R180 to R184). `BranchesOn` says once, for one of them, the state it
continues in; the four differ in their condition alone, which is the one of R92's table.
-/

namespace Sys2Proof.Machine
open Sys2Proof.Claims

theorem commitsOnly_setPc (s : State) (d : Word) : CommitsOnly s (s.setPc d) d :=
  ⟨rfl, fun _ _ => rfl, fun _ => rfl, rfl, rfl⟩

/-- `i` goes to `pc + imm` with bit 0 forced where `taken` holds and to `pc + 4` where it does not. -/
def BranchesOn (i : Instr) (s : State) (imm : Word) (taken : Prop) [Decidable taken] : Prop :=
  exec i s = .next (s.setPc (if taken then clearBit0 (s.pc + imm) else s.pc + 4#32))

/-- What an instruction that only commits a pc commits is its entry of R92's table. -/
theorem branchesOn_of_dnpcOf {i : Instr} {s : State} {imm d : Word} {taken : Prop} [Decidable taken]
    (hexec : exec i s = .next (s.setPc d))
    (hdnpc : dnpcOf s i = if taken then clearBit0 (s.pc + imm) else s.pc + 4#32) : BranchesOn i s imm taken := by
  have hd : d = dnpcOf s i := exec_next_pc hexec
  rw [BranchesOn, ← hdnpc, ← hd, hexec]

/-! ### The four branches (R181 to R184) -/

section
variable (rs1 rs2 : RegIndex) (imm : Word) (s : State)

theorem beq_branchesOn : BranchesOn (.beq rs1 rs2 imm) s imm (s.readReg rs1 = s.readReg rs2) :=
  branchesOn_of_dnpcOf rfl rfl

theorem bne_branchesOn : BranchesOn (.bne rs1 rs2 imm) s imm (s.readReg rs1 ≠ s.readReg rs2) :=
  branchesOn_of_dnpcOf rfl rfl

theorem blt_branchesOn : BranchesOn (.blt rs1 rs2 imm) s imm ((s.readReg rs1).toInt < (s.readReg rs2).toInt) :=
  branchesOn_of_dnpcOf rfl rfl

theorem bge_branchesOn : BranchesOn (.bge rs1 rs2 imm) s imm ((s.readReg rs2).toInt ≤ (s.readReg rs1).toInt) :=
  branchesOn_of_dnpcOf rfl rfl

end

/-! ### What a branch does -/

section
variable {i j : Instr} {s : State} {imm : Word} {taken : Prop} [Decidable taken]

theorem BranchesOn.branches (h : BranchesOn i s imm taken) : Branches i s imm taken := by
  refine ⟨_, _, h, commitsOnly_setPc s _, fun htaken => ?_, fun hnot => if_neg hnot⟩
  rw [if_pos htaken]
  exact ⟨clearBit0_even _, fun _ => clearBit0_getLsbD _⟩

/-- From an even pc and by an even immediate, forcing bit 0 changes nothing (R180). -/
theorem BranchesOn.commitsOnly_of_even (h : BranchesOn i s imm taken) (hpc : s.pc[0] = false)
    (himm : imm[0] = false) :
    ∃ t, exec i s = .next t ∧ CommitsOnly s t (if taken then s.pc + imm else s.pc + 4#32) := by
  have heven : clearBit0 (s.pc + imm) = s.pc + imm := clearBit0_of_even (add_even hpc himm)
  rw [BranchesOn, heven] at h
  exact ⟨_, h, commitsOnly_setPc s _⟩

/-- Of two branches on opposite conditions exactly one goes to the target, where the target tells them apart. -/
theorem BranchesOn.complements {taken' : Prop} [Decidable taken'] (hi : BranchesOn i s imm taken)
    (hj : BranchesOn j s imm taken') (hopposite : taken ↔ ¬ taken')
    (hne : clearBit0 (s.pc + imm) ≠ s.pc + 4#32) :
    ∃ t u, exec i s = .next t ∧ exec j s = .next u ∧
      (t.pc = clearBit0 (s.pc + imm) ↔ u.pc ≠ clearBit0 (s.pc + imm)) := by
  refine ⟨_, _, hi, hj, ?_⟩
  rw [setPc_pc, setPc_pc, hne.ite_eq_left_iff, Ne, hne.ite_eq_left_iff]
  exact hopposite

end

/-! ### The statements -/

/-- Settles O31: `bne` and `bge` are stated with their outcomes exchanged, on the condition that does not hold. -/
theorem branchResults : Obligations.BranchResults := by
  intro rs1 rs2 imm s hpc himm
  have hbne := (bne_branchesOn rs1 rs2 imm s).commitsOnly_of_even hpc himm
  have hbge := (bge_branchesOn rs1 rs2 imm s).commitsOnly_of_even hpc himm
  simp only [ne_eq, ite_not] at hbne
  simp only [← Int.not_lt, ite_not] at hbge
  exact ⟨(beq_branchesOn rs1 rs2 imm s).commitsOnly_of_even hpc himm, hbne,
    (blt_branchesOn rs1 rs2 imm s).commitsOnly_of_even hpc himm, hbge⟩

/-- Settles O32: a taken branch commits the target with bit 0 forced, whatever the pc and the immediate are. -/
theorem branchesForceBitZero : Obligations.BranchesForceBitZero :=
  fun rs1 rs2 imm s =>
    ⟨(beq_branchesOn rs1 rs2 imm s).branches, (bne_branchesOn rs1 rs2 imm s).branches,
      (blt_branchesOn rs1 rs2 imm s).branches, (bge_branchesOn rs1 rs2 imm s).branches⟩

/-- Settles O33: the two branches of a pair have opposite conditions. -/
theorem branchPairsAreComplements : Obligations.BranchPairsAreComplements :=
  fun rs1 rs2 imm s hne =>
    ⟨(blt_branchesOn rs1 rs2 imm s).complements (bge_branchesOn rs1 rs2 imm s) Int.not_le.symm hne,
      (beq_branchesOn rs1 rs2 imm s).complements (bne_branchesOn rs1 rs2 imm s) not_not.symm hne⟩

end Sys2Proof.Machine
end

section
/-!
PROOF. The host trap, the decode fault and the results of a step (49_trap_and_invalid.md R190, R191; 60_exceptions.md
R200 to R207): which word and which access gives which result, and what a result leaves unchanged.
-/

namespace Sys2Proof

theorem decodeWord_eq_ebreak_iff {w : Word} : decodeWord w = .ebreak ↔ w = 0x00100073#32 := by
  constructor
  · intro h
    have hrow := inRow_decodeWord w
    rw [h] at hrow
    exact eq_of_inRow_ebreak hrow
  · rintro rfl
    exact decodeWord_encodeWord (i := .ebreak) rfl

end Sys2Proof

namespace Sys2Proof.Machine

/-! ### The two instructions that always end the step -/

theorem exec_ebreak (s : State) :
    exec .ebreak s = .fault (.hostTrap s.pc (s.readReg s.trapArgReg) (s.setPc (s.pc + 4#32))) := rfl

theorem exec_inv (s : State) : exec .inv s = .fault (.decodeFault s.pc (s.setPc (s.pc + 4#32))) := rfl

/-- Settles O43: the host trap leaves the state with `pc + 4` committed. -/
theorem hostTrapStops : Obligations.HostTrapStops :=
  fun s => ⟨_, exec_ebreak s, commitsOnly_setPc s _⟩

/-- Settles O44: the decode fault leaves the state with `pc + 4` committed. -/
theorem invalidInstructionStops : Obligations.InvalidInstructionStops :=
  fun s => ⟨_, exec_inv s, commitsOnly_setPc s _⟩

/-! ### The step on a fetched word -/

section
variable {s : State} {w : Word} (hfetch : s.fetch = some w)
include hfetch

/-- What is fetched is what memory holds at the pc (R31). -/
theorem read_pc_of_fetch : s.mem.read s.pc .word = w := by
  cases hadmit : mapAdmits s.admits s.pc .word .fetch with
  | true => exact Option.some.inj ((fetch_admitted hadmit).symm.trans hfetch)
  | false => cases (fetch_refused hadmit).symm.trans hfetch

theorem step_of_ebreak_word (hw : w = 0x00100073#32) :
    step s = .fault (.hostTrap s.pc (s.readReg s.trapArgReg) (s.setPc (s.pc + 4#32))) := by
  rw [step_of_fetch hfetch, decodeWord_eq_ebreak_iff.mpr hw, exec_ebreak]

theorem step_of_no_defined_row (hrows : ∀ e ∈ definedRows, w &&& e.mask ≠ e.expected) :
    step s = .fault (.decodeFault s.pc (s.setPc (s.pc + 4#32))) := by
  rw [step_of_fetch hfetch, (invalidIffNoDefinedRow w).mpr hrows, exec_inv]

end

/-- Settles O45: the state left differs from the step's own in the pc alone. -/
theorem decodeFaultCarriesFetchAddress : Obligations.DecodeFaultCarriesFetchAddress := by
  intro s w hfetch hrows
  refine ⟨_, step_of_no_defined_row hfetch hrows, ?_, fun _ => rfl⟩
  rw [setPc_mem, read_pc_of_fetch hfetch]

/-! ### The classification (R200, R206) -/

theorem exec_load_continues {i : Instr} {s : State} {rs1 : RegIndex} {imm : Word} {n : Width}
    (hload : i.load? = some (rs1, imm, n)) (hadmit : mapAdmits s.admits (effAddr s rs1 imm) n .read = true) :
    ∃ t, exec i s = .next t := by
  obtain ⟨rd, ext, hexec⟩ := exec_eq_loadInto_of_load hload s
  obtain ⟨t, hnext, -⟩ := computes_of_loadInto hexec hadmit
  exact ⟨t, hnext⟩

theorem exec_store_continues {i : Instr} {s : State} {rs1 : RegIndex} {imm : Word} {n : Width}
    (hstore : i.store? = some (rs1, imm, n)) (hadmit : mapAdmits s.admits (effAddr s rs1 imm) n .write = true) :
    ∃ t, exec i s = .next t := by
  obtain ⟨v, hexec⟩ := exec_eq_storeTo_of_store hstore s
  obtain ⟨t, hnext, -⟩ := exists_storesOnly_of_storeTo hexec hadmit
  exact ⟨t, hnext⟩

/-- Every instruction but the two that always end the step continues, unless its data access is refused. -/
theorem exec_continues {i : Instr} {s : State} (hebreak : i ≠ .ebreak) (hinv : i ≠ .inv)
    (hload : ∀ rs1 imm n, i.load? = some (rs1, imm, n) → mapAdmits s.admits (effAddr s rs1 imm) n .read = true)
    (hstore : ∀ rs1 imm n, i.store? = some (rs1, imm, n) →
      mapAdmits s.admits (effAddr s rs1 imm) n .write = true) :
    ∃ t, exec i s = .next t := by
  cases i
  case lw | lh | lhu | lbu => exact exec_load_continues rfl (hload _ _ _ rfl)
  case sw | sh | sb => exact exec_store_continues rfl (hstore _ _ _ rfl)
  case ebreak | inv => contradiction
  all_goals exact ⟨_, rfl⟩

/-- Settles O46: one clause for each result, and the instructions that are left continue. -/
theorem stepResultClassified : Obligations.StepResultClassified := by
  intro s
  refine ⟨step_of_refused, fun w hfetch => ⟨step_of_ebreak_word hfetch, step_of_no_defined_row hfetch, ?_, ?_, ?_⟩⟩
  · intro rs1 imm n hload hrefused
    exact (step_of_fetch hfetch).trans (loadFaults _ rs1 imm n s hload hrefused)
  · intro rs1 imm n hstore hrefused
    exact (step_of_fetch hfetch).trans (storeFaults _ rs1 imm n s hstore hrefused)
  · rintro hw ⟨e, he, hmatch⟩ hload hstore
    have hebreak : decodeWord w ≠ .ebreak := mt decodeWord_eq_ebreak_iff.mp hw
    have hinv : decodeWord w ≠ .inv := fun h => (invalidIffNoDefinedRow w).mp h e he hmatch
    rw [step_of_fetch hfetch]
    exact exec_continues hebreak hinv hload hstore

/-! ### What a result leaves -/

/-- Settles O47: a step that does not continue raised one of the three results, at its own state. -/
theorem resultsArePrecise : Obligations.ResultsArePrecise := by
  intro s f h
  obtain ⟨c, hraise⟩ := raise_of_step_fault h
  cases c with
  | hostTrap code => cases hraise; exact ⟨fun _ _ => rfl, rfl, .inl ⟨code, _, rfl, rfl⟩⟩
  | decodeFault => cases hraise; exact ⟨fun _ _ => rfl, rfl, .inr (.inl ⟨_, rfl, rfl⟩)⟩
  | memoryFault a => cases hraise; exact ⟨fun _ _ => rfl, rfl, .inr (.inr ⟨a, rfl⟩)⟩

end Sys2Proof.Machine
end
